-- ==== Sys2Proof/Word.lean ====
section
/-! DEFINITION. The bit-vector types the spec gives names to: the byte, the 24-bit operation word, the half number. -/

namespace Sys2Proof

/-- A byte, the smallest addressable unit everywhere (20_memory.md R50). -/
abbrev Byte := BitVec 8

/-- An operation word `W[23:0]` (30_encoding.md R80). -/
abbrev OpWord := BitVec 24

/-- A byte address of a receive buffer, 0 to N - 1 (20_memory.md R50). -/
abbrev RxAddr := BitVec 8

/-- Which half of a receive buffer: 0 the first, 1 the second (10_state.md R24, R30). A bit, because
the window address is the concatenation `SH[s] ++ IDX[s]` (R44). -/
abbrev Half := BitVec 1

end Sys2Proof
end

