-- ==== Sys2Proof/Config.lean ====
section
/-! DEFINITION. What is fixed for the machine: the size constants, the two sides, the frame, and the free values
(constants without a body: nothing can be proved about which value they are). -/

namespace Sys2Proof

/-- The two sides: `s0` is side 0 (USART), `s1` is side 1 (SPI) (00_scope.md R7). -/
inductive Side where
  | s0
  | s1
deriving DecidableEq, Repr, Inhabited

namespace Config

/-- `N`: length in bytes of a circular receive buffer (00_scope.md R5). -/
abbrev N : Nat := 256

/-- `H = N / 2`: length in bytes of one half-buffer window (00_scope.md R5). -/
abbrev H : Nat := 128

/-- `L`: length in bytes of a frame and of the working buffer (00_scope.md R5). -/
abbrev L : Nat := 16

/-- `M`: capacity of a transfer queue, in frames (00_scope.md R5). -/
abbrev M : Nat := 16

/-- `NSIDES`: number of sides (00_scope.md R5). -/
abbrev NSIDES : Nat := 2

end Config

/-- A frame: `L` bytes, index 0 first (00_scope.md R11, 10_state.md R25). -/
abbrev Frame := Vector Byte Config.L

/-- The storage of a transfer queue: `M` slots of one frame (10_state.md R26). -/
abbrev QueueMem := Vector Frame Config.M

namespace Config

/-! The free values. 10_state.md R43 marks these elements "unspecified" after `RESET` and
93_implementation_defined.md U8 treats them as `any value`. The first argument is the number of the drawing
(`State.draws`), so that each RESET draws afresh. Assumption log 3 and 4. -/

/-- The byte drawn for address `a` of `RXBUF[s]` (10_state.md R43, R45, R52). -/
opaque freeRxByte : Nat → Side → Nat → Byte

/-- The value drawn for `NVAL[s]`. -/
opaque freeNval : Nat → Side → Half

/-- The value drawn for `SH[s]`. -/
opaque freeSh : Nat → Side → Half

/-- The value drawn for `IDX[s]`: any of its 7 bits' values, 0 to `H - 1` (10_state.md R36). -/
opaque freeIdx : Nat → Side → BitVec 7

/-- The value drawn for `CNT[s]`: any legal value at an operation boundary, 0 to `L - 1`, so four bits
(10_state.md R32, R36, R39; assumption log 5). -/
opaque freeCnt : Nat → Side → BitVec 4

/-- The bytes drawn for `WB[s]`. -/
opaque freeWb : Nat → Side → Frame

/-- The bytes drawn for `TXBUF[s]`. -/
opaque freeTxbuf : Nat → Side → Frame

/-- The bytes drawn for `QMEM[s]`. -/
opaque freeQmem : Nat → Side → QueueMem

end Config

end Sys2Proof
end

