-- ==== Sys2Proof/Syntax.lean ====
section
/-! DEFINITION. The ten operations of 30_encoding.md R84 as abstract syntax, and the reasons a word is illegal (R87). -/

namespace Sys2Proof

/-- The driver's answer to `start_transmit`: the operand `e` of `TXISSUE` (00_scope.md R8, 30_encoding.md R82). -/
inductive Answer where
  | ok
  | error
deriving DecidableEq, Repr

/-- The ten operations, one constructor per row of spec/opcode_table.json (30_encoding.md R84). -/
inductive Instr where
  /-- `RESET`, host (44_sequencer_and_system.md R168). -/
  | reset
  /-- `ENABLE fc`, host; `fc` is the result code of 30_encoding.md R86 (44_sequencer_and_system.md R167). -/
  | enable (fc : BitVec 4)
  /-- `DMAWR s, a, d`, receive DMA of side `s` (40_receive_and_notifier.md R103). -/
  | dmawr (s : Side) (a : RxAddr) (d : Byte)
  /-- `RXHALF s`, interrupt (40_receive_and_notifier.md R104). -/
  | rxhalf (s : Side)
  /-- `RXFULL s`, interrupt (40_receive_and_notifier.md R105). -/
  | rxfull (s : Side)
  /-- `TXDONE s`, interrupt (43_transmit_flow.md R153). -/
  | txdone (s : Side)
  /-- `NTAKE s`, sequencer of side `s` (40_receive_and_notifier.md R106). -/
  | ntake (s : Side)
  /-- `RSTEP s`, sequencer of side `s` (41_reassembler.md R127). -/
  | rstep (s : Side)
  /-- `TXISSUE s, e`, sequencer of side `s` (43_transmit_flow.md R151). -/
  | txissue (s : Side) (e : Answer)
  /-- `TXDEFER s`, sequencer of side `s` (43_transmit_flow.md R152). -/
  | txdefer (s : Side)
deriving DecidableEq, Repr

/-- Why a word names no operation (30_encoding.md R87), in the order R89 looks. -/
inductive Illegal where
  /-- `rsv`, `W[23:21]`, is not 0. -/
  | reservedBits
  /-- `opc` is one of 0x6, 0x7, 0xC to 0xF. -/
  | noSuchOpcode
  /-- `s = 1` in `RESET` or `ENABLE`. -/
  | sideNotZero
  /-- `A` is not 0 in an operation other than `DMAWR`. -/
  | fieldANotZero
  /-- a bit of `B` that the operation does not use is not 0. -/
  | fieldBNotZero
  /-- `B[3:0]` of `ENABLE` is not a legal `fc` of R86. -/
  | resultCodeNotLegal
deriving DecidableEq, Repr

/-- Why no operation can be read from a list of bytes (30_encoding.md R83, R88). -/
inductive NoOp where
  /-- no byte is left. -/
  | endOfBytes
  /-- one or two bytes are left: less than one operation word. -/
  | truncatedWord
  /-- the three bytes are an illegal word. -/
  | illegalWord (why : Illegal)
deriving DecidableEq, Repr

end Sys2Proof
end

