-- ==== Sys2Proof/WellFormed.lean ====
section
/-! DEFINITION. Which terms of `Instr` are operations of the spec: every term but an `enable` whose result code is not legal. -/

namespace Sys2Proof

/-- The legal result codes of `ENABLE` (30_encoding.md R86): `0b0000`, and `0bt001` to `0bt100` for each side `t`.
`0b1000`, `0bt101`, `0bt110`, `0bt111` are not legal operands. -/
def fcLegal (fc : BitVec 4) : Bool :=
  fc = 0 || (decide (1 ≤ (fc.extractLsb' 0 3).toNat) && decide ((fc.extractLsb' 0 3).toNat ≤ 4))

/-- An operation is well formed when its operands are legal (30_encoding.md R82, R86, R87). The types of the other
operands hold legal values only. -/
def Instr.wf : Instr → Bool
  | .reset => true
  | .enable fc => fcLegal fc
  | .dmawr _ _ _ => true
  | .rxhalf _ => true
  | .rxfull _ => true
  | .txdone _ => true
  | .ntake _ => true
  | .rstep _ => true
  | .txissue _ _ => true
  | .txdefer _ => true

end Sys2Proof
end

