-- ==== Sys2Proof/Decode.lean ====
section
/-! DEFINITION. The decoder, total on words and on byte lists and rejecting by name, the encoder written from the same
tables, and the operation map of 30_encoding.md R84 as rows of match and mask. -/

namespace Sys2Proof

/-! ## Fields of the operation word (30_encoding.md R81) -/

/-- `rsv = W[23:21]`. -/
def fieldRsv (w : OpWord) : BitVec 3 := w.extractLsb' 21 3

/-- `s = W[20]`. -/
def fieldS (w : OpWord) : BitVec 1 := w.extractLsb' 20 1

/-- `opc = W[19:16]`. -/
def fieldOpc (w : OpWord) : BitVec 4 := w.extractLsb' 16 4

/-- `A = W[15:8]`. -/
def fieldA (w : OpWord) : BitVec 8 := w.extractLsb' 8 8

/-- `B = W[7:0]`. -/
def fieldB (w : OpWord) : BitVec 8 := w.extractLsb' 0 8

/-- The side a bit names (00_scope.md R7). -/
def sideOfBit (b : BitVec 1) : Side := if b = 0 then .s0 else .s1

/-- The bit that names a side. -/
def bitOfSide : Side → BitVec 1
  | .s0 => 0
  | .s1 => 1

/-- `e = B[0]`: 0 is `ok`, 1 is `error` (30_encoding.md R82). -/
def answerOfBit (b : BitVec 1) : Answer := if b = 0 then .ok else .error

/-- The bit of a driver's answer. -/
def bitOfAnswer : Answer → BitVec 1
  | .ok => 0
  | .error => 1

/-! ## Decoding (30_encoding.md R87, R89) -/

/-- An operation with the one operand `s`: `A` and `B` must be 0. -/
def decodeSideOnly (mk : Side → Instr) (w : OpWord) : Except Illegal Instr :=
  if fieldA w ≠ 0 then .error .fieldANotZero
  else if fieldB w ≠ 0 then .error .fieldBNotZero
  else .ok (mk (sideOfBit (fieldS w)))

/-- `RESET`: `s`, `A` and `B` must be 0. -/
def decodeReset (w : OpWord) : Except Illegal Instr :=
  if fieldS w ≠ 0 then .error .sideNotZero
  else if fieldA w ≠ 0 then .error .fieldANotZero
  else if fieldB w ≠ 0 then .error .fieldBNotZero
  else .ok .reset

/-- `ENABLE fc`: `s`, `A` and `B[7:4]` must be 0 and `B[3:0]` a legal `fc`. -/
def decodeEnable (w : OpWord) : Except Illegal Instr :=
  if fieldS w ≠ 0 then .error .sideNotZero
  else if fieldA w ≠ 0 then .error .fieldANotZero
  else if (fieldB w).extractLsb' 4 4 ≠ 0 then .error .fieldBNotZero
  else if fcLegal ((fieldB w).extractLsb' 0 4) then .ok (.enable ((fieldB w).extractLsb' 0 4))
  else .error .resultCodeNotLegal

/-- `DMAWR s, a, d`: `a = A`, `d = B`. -/
def decodeDmawr (w : OpWord) : Except Illegal Instr :=
  .ok (.dmawr (sideOfBit (fieldS w)) (fieldA w) (fieldB w))

/-- `TXISSUE s, e`: `A` and `B[7:1]` must be 0, `e = B[0]`. -/
def decodeTxissue (w : OpWord) : Except Illegal Instr :=
  if fieldA w ≠ 0 then .error .fieldANotZero
  else if (fieldB w).extractLsb' 1 7 ≠ 0 then .error .fieldBNotZero
  else .ok (.txissue (sideOfBit (fieldS w)) (answerOfBit ((fieldB w).extractLsb' 0 1)))

/-- Decoding by operation code (30_encoding.md R84): step (3) to (5) of R89. -/
def decodeByOpcode (opc : Nat) (w : OpWord) : Except Illegal Instr :=
  match opc with
  | 0 => decodeReset w
  | 1 => decodeEnable w
  | 2 => decodeDmawr w
  | 3 => decodeSideOnly .rxhalf w
  | 4 => decodeSideOnly .rxfull w
  | 5 => decodeSideOnly .txdone w
  | 8 => decodeSideOnly .ntake w
  | 9 => decodeSideOnly .rstep w
  | 10 => decodeTxissue w
  | 11 => decodeSideOnly .txdefer w
  | _ => .error .noSuchOpcode

/-- Decoding of one operation word, total and independent of the state (30_encoding.md R89). -/
def decodeWord (w : OpWord) : Except Illegal Instr :=
  if fieldRsv w ≠ 0 then .error .reservedBits
  else decodeByOpcode (fieldOpc w).toNat w

/-- The word three stored bytes make, most significant byte first (30_encoding.md R83). -/
def wordOfBytes (b2 b1 b0 : Byte) : OpWord := b2 ++ b1 ++ b0

/-- The bytes of a word as stored: `W[23:16]`, `W[15:8]`, `W[7:0]` (30_encoding.md R83). -/
def bytesOfWord (w : OpWord) : List Byte := [w.extractLsb' 16 8, w.extractLsb' 8 8, w.extractLsb' 0 8]

/-- Reads one operation from a list of bytes, three bytes per operation (30_encoding.md R88), and answers it with the
bytes that follow. -/
def decode : List Byte → Except NoOp (Instr × List Byte)
  | [] => .error .endOfBytes
  | [_] => .error .truncatedWord
  | [_, _] => .error .truncatedWord
  | b2 :: b1 :: b0 :: rest =>
    match decodeWord (wordOfBytes b2 b1 b0) with
    | .ok i => .ok (i, rest)
    | .error why => .error (.illegalWord why)

/-- The word of a table row: its low `nbits` bits are those of `w`, every bit above is 0. -/
def tableWord (nbits w : Nat) : OpWord := BitVec.ofNat 24 (w % 2 ^ nbits)

/-- The instruction the decoder reads from the table's word, laid out as stored bytes. -/
def decodeTableWord (nbits w : Nat) : Option Instr :=
  match decode (bytesOfWord (tableWord nbits w)) with
  | .ok (i, _) => some i
  | .error _ => none

/-! ## Encoding (30_encoding.md R81, R84) -/

/-- The operation code of an operation (30_encoding.md R84). -/
def opcodeOf : Instr → BitVec 4
  | .reset => 0x0
  | .enable _ => 0x1
  | .dmawr _ _ _ => 0x2
  | .rxhalf _ => 0x3
  | .rxfull _ => 0x4
  | .txdone _ => 0x5
  | .ntake _ => 0x8
  | .rstep _ => 0x9
  | .txissue _ _ => 0xA
  | .txdefer _ => 0xB

/-- The field `s` of an operation; 0 for `RESET` and `ENABLE` (30_encoding.md R81). -/
def sideFieldOf : Instr → BitVec 1
  | .reset => 0
  | .enable _ => 0
  | .dmawr s _ _ => bitOfSide s
  | .rxhalf s => bitOfSide s
  | .rxfull s => bitOfSide s
  | .txdone s => bitOfSide s
  | .ntake s => bitOfSide s
  | .rstep s => bitOfSide s
  | .txissue s _ => bitOfSide s
  | .txdefer s => bitOfSide s

/-- The field `A`: the address of `DMAWR`, else 0 (30_encoding.md R81). -/
def fieldAOf : Instr → BitVec 8
  | .reset => 0
  | .enable _ => 0
  | .dmawr _ a _ => a
  | .rxhalf _ => 0
  | .rxfull _ => 0
  | .txdone _ => 0
  | .ntake _ => 0
  | .rstep _ => 0
  | .txissue _ _ => 0
  | .txdefer _ => 0

/-- The field `B`: the data byte of `DMAWR`, the result code of `ENABLE`, the answer bit of `TXISSUE`, else 0
(30_encoding.md R81). -/
def fieldBOf : Instr → BitVec 8
  | .reset => 0
  | .enable fc => 0#4 ++ fc
  | .dmawr _ _ d => d
  | .rxhalf _ => 0
  | .rxfull _ => 0
  | .txdone _ => 0
  | .ntake _ => 0
  | .rstep _ => 0
  | .txissue _ e => 0#7 ++ bitOfAnswer e
  | .txdefer _ => 0

/-- The operation word of an operation: `rsv`, `s`, `opc`, `A`, `B` from the most significant end (30_encoding.md R81). -/
def encode (i : Instr) : OpWord :=
  0#3 ++ sideFieldOf i ++ opcodeOf i ++ fieldAOf i ++ fieldBOf i

/-- The stored bytes of an operation (30_encoding.md R83). -/
def encodeBytes (i : Instr) : List Byte := bytesOfWord (encode i)

/-! ## The operation map (30_encoding.md R84) -/

/-- One row of the operation map: a word `W` is the operation when `W & mask = match` (30_encoding.md R84). -/
structure OpRow where
  mnemonic : String
  opc : BitVec 4
  pattern : OpWord
  mask : OpWord
deriving DecidableEq, Repr

/-- The ten rows of 30_encoding.md R84. -/
def opTable : List OpRow :=
  [ ⟨"RESET", 0x0, 0x000000, 0xFFFFFF⟩,
    ⟨"ENABLE", 0x1, 0x010000, 0xFFFFF0⟩,
    ⟨"DMAWR", 0x2, 0x020000, 0xEF0000⟩,
    ⟨"RXHALF", 0x3, 0x030000, 0xEFFFFF⟩,
    ⟨"RXFULL", 0x4, 0x040000, 0xEFFFFF⟩,
    ⟨"TXDONE", 0x5, 0x050000, 0xEFFFFF⟩,
    ⟨"NTAKE", 0x8, 0x080000, 0xEFFFFF⟩,
    ⟨"RSTEP", 0x9, 0x090000, 0xEFFFFF⟩,
    ⟨"TXISSUE", 0xA, 0x0A0000, 0xEFFFFE⟩,
    ⟨"TXDEFER", 0xB, 0x0B0000, 0xEFFFFF⟩ ]

/-- `W & mask = match`. -/
def OpRow.matchesWord (r : OpRow) (w : OpWord) : Bool := w &&& r.mask = r.pattern

/-- The mnemonic of an operation (30_encoding.md R84). -/
def mnemonicOf : Instr → String
  | .reset => "RESET"
  | .enable _ => "ENABLE"
  | .dmawr _ _ _ => "DMAWR"
  | .rxhalf _ => "RXHALF"
  | .rxfull _ => "RXFULL"
  | .txdone _ => "TXDONE"
  | .ntake _ => "NTAKE"
  | .rstep _ => "RSTEP"
  | .txissue _ _ => "TXISSUE"
  | .txdefer _ => "TXDEFER"

end Sys2Proof
end

