-- ==== Sys2Proof/Machine/State.lean ====
section
/-! DEFINITION. The state of the block (10_state.md R20), as plain data: one global group, one context object per side,
and the model's own fields (the operations still to be presented, the port events so far, the counter of drawings);
the reasons a step can stop; the state after reset. -/

namespace Sys2Proof
namespace Machine

/-- `MODE` (10_state.md R21). The value 3 is never written by any rule and is left out (93_implementation_defined.md U16). -/
inductive Mode where
  | off
  | run
  | fatal
deriving DecidableEq, Repr

/-- `FCAUSE` (60_exceptions.md R187). The values 6 and 7 are never written and are left out
(93_implementation_defined.md U16). -/
inductive Cause where
  | none
  | chan
  | task
  | wset
  | rxst
  | txst
deriving DecidableEq, Repr

/-- `PH[s]`, the phase of a sequencer (10_state.md R29). -/
inductive Phase where
  | idle
  | scan
deriving DecidableEq, Repr

/-- One event on an output port group (00_scope.md R10, R12). -/
inductive PortEvent where
  /-- `rx_start[s]`: `start_circular_receive` over `RXBUF[s]` with this length. -/
  | rxStart (s : Side) (length : Nat)
  /-- `tx_start[s]`: `start_transmit` of this frame, byte 0 first, with this length (43_transmit_flow.md R160). -/
  | txStart (s : Side) (frame : Frame) (length : Nat)
deriving DecidableEq, Repr

/-- The context object of one side (10_state.md R20): its buffer, notifier, queue, flag and sequencer registers. -/
structure SideState where
  /-- `RXBUF[s]`: the bytes written since reset, addresses strictly rising; an unlisted address reads as the byte drawn
  at reset (assumption log 4). -/
  rxbuf : List Host.Cell
  /-- `NV[s]`: the notifier slot is occupied (R24). -/
  nv : Bool
  /-- `NVAL[s]`: the notifier slot's value (R24). -/
  nval : Half
  /-- `QMEM[s]`: frame storage of the inbound queue (R26). -/
  qmem : QueueMem
  /-- `QHEAD[s]`: slot of the oldest frame (R26). -/
  qhead : BitVec 4
  /-- `QTAIL[s]`: slot the next push writes (R26). -/
  qtail : BitVec 4
  /-- `QCNT[s]`: frames held, 0 to M (R26). -/
  qcnt : BitVec 5
  /-- `TXF[s]`: a transmission is outstanding (R27, 00_scope.md R15). -/
  txf : Bool
  /-- `TXBUF[s]`: the frame being transmitted (R28). -/
  txbuf : Frame
  /-- `PH[s]`: phase of the sequencer (R29). -/
  ph : Phase
  /-- `SH[s]`: half under scan (R30). -/
  sh : Half
  /-- `IDX[s]`: index of the next byte of the window (R31). -/
  idx : BitVec 7
  /-- `CNT[s]`: bytes in the working buffer (R32). -/
  cnt : BitVec 5
  /-- `WB[s]`: the working buffer (R33). -/
  wb : Frame
deriving DecidableEq, Repr

/-- The whole state. -/
structure State where
  /-- `MODE` (R21). -/
  mode : Mode
  /-- `FCAUSE` (R22). -/
  fcause : Cause
  /-- `FSIDE` (R22). -/
  fside : Side
  /-- The context object of side 0 (USART). -/
  ctx0 : SideState
  /-- The context object of side 1 (SPI). -/
  ctx1 : SideState
  /-- The model's own: stored words of the operations still to be presented (assumption log 1). -/
  trace : List Byte
  /-- The model's own: the port events driven so far, oldest first (assumption log 9). -/
  outs : List PortEvent
  /-- The model's own: how many times unspecified values have been drawn (assumption log 3). -/
  draws : Nat
deriving DecidableEq, Repr

/-- The reasons the machine stops with a fault. The spec's own fault, the fatal condition, is not one of them: it is
taken, a next state with `MODE = FATAL` (60_exceptions.md R186; assumption log 6). -/
inductive Fault where
  /-- Raised by `RSTEP s` when it has a byte to append and `CNT[s] >= L`: the working buffer has no such index
  (41_reassembler.md R123, 20_memory.md R50). No run reaches it (10_state.md R32). Safe (assumption log 8). -/
  | workingBufferOverrun
deriving DecidableEq, Repr

/-- The reasons an operation is refused (00_scope.md R13): its enabling condition is false, or it is no operation.
A refused operation changes nothing. Assumption log 7. -/
inductive Refusal where
  /-- Raised by exec's arm of an instruction that has no meaning yet. Safe. -/
  | notModelled (mnemonic : String)
  /-- Raised by every operation but `RESET` and `ENABLE` when `MODE` is not `RUN` (44 R166, 70 R211). Safe. -/
  | modeNotRun
  /-- Raised by `ENABLE` when `MODE` is not `OFF` (44 R167: invoked exactly once). Safe. -/
  | modeNotOff
  /-- Raised by `NTAKE`, `TXISSUE`, `TXDEFER` during a pass, `PH[s] = SCAN` (44 R166). Safe. -/
  | passUnderWay
  /-- Raised by `RSTEP` with no pass under way, `PH[s] = IDLE` (44 R166). Safe. -/
  | noPassUnderWay
  /-- Raised by `NTAKE` when the notifier slot is empty, `NV[s] = 0` (44 R166). Safe. -/
  | slotEmpty
  /-- Raised by `TXISSUE`, `TXDEFER` when the inbound queue is empty, `QCNT[s] = 0` (44 R166). Safe. -/
  | queueEmpty
  /-- Raised by `TXISSUE` when a transmission is outstanding, `TXF[s] = 1` (44 R166). Safe. -/
  | flagSet
  /-- Raised by `TXDEFER` when none is outstanding, `TXF[s] = 0` (44 R166). Safe. -/
  | flagClear
  /-- Raised by `ENABLE` with a result code that 30_encoding.md R86 calls not a legal operand; the decoder answers no
  such operation. Safe. -/
  | resultCodeNotLegal
  /-- Raised by the step when no operation can be read from the trace: it has ended, it ends inside a word, or its next
  word is illegal (30_encoding.md R87). Safe. -/
  | noOperation (why : NoOp)
deriving DecidableEq, Repr

/-- A frame of zero bytes. -/
abbrev zeroFrame : Frame := Vector.replicate Config.L 0

/-- One side after reset (10_state.md R43): slot empty, queue empty, flag clear, `IDLE`. `NVAL`, `QMEM`, `TXBUF`, `SH`,
`IDX`, `CNT`, `WB` are unspecified there; zero is the model's choice (DESIGN CHOICE, unsafe; assumption log 2). -/
def SideState.reset : SideState where
  rxbuf := []
  nv := false
  nval := 0
  qmem := Vector.replicate Config.M zeroFrame
  qhead := 0
  qtail := 0
  qcnt := 0
  txf := false
  txbuf := zeroFrame
  ph := .idle
  sh := 0
  idx := 0
  cnt := 0
  wb := zeroFrame

/-- The machine right after reset (10_state.md R43, 70_reset_and_hazards.md R210), with no operation presented. -/
def State.reset : State where
  mode := .off
  fcause := .none
  fside := .s0
  ctx0 := SideState.reset
  ctx1 := SideState.reset
  trace := []
  outs := []
  draws := 0

end Machine
end Sys2Proof
end

