-- ==== Sys2Proof/Machine/Operands.lean ====
section
/-! DEFINITION. The operand forms: what a side, a result code and a window position select, and the bit codes of the
state's named values. -/

namespace Sys2Proof
namespace Machine

/-! ## Sides (00_scope.md R7) -/

/-- `peer(s) = 1 - s` (00_scope.md R7). -/
def peer : Side → Side
  | .s0 => .s1
  | .s1 => .s0

/-- The context object of a side. -/
def State.side (σ : State) : Side → SideState
  | .s0 => σ.ctx0
  | .s1 => σ.ctx1

/-- The state with the context object of a side replaced. -/
def State.setSide (σ : State) (s : Side) (c : SideState) : State :=
  match s with
  | .s0 => { σ with ctx0 := c }
  | .s1 => { σ with ctx1 := c }

/-! ## The result code of `ENABLE` (30_encoding.md R86, 60_exceptions.md R187) -/

/-- The cause a three-bit code names. The codes 6 and 7 name none; no legal operand holds them. -/
def causeOfCode (c : BitVec 3) : Cause :=
  match c.toNat with
  | 1 => .chan
  | 2 => .task
  | 3 => .wset
  | 4 => .rxst
  | 5 => .txst
  | _ => .none

/-- `fc[2:0]` as a cause (30_encoding.md R86). -/
def fcCause (fc : BitVec 4) : Cause := causeOfCode (fc.extractLsb' 0 3)

/-- `fc[3]` as a side (30_encoding.md R86). -/
def fcSide (fc : BitVec 4) : Side := if fc.extractLsb' 3 1 = 0 then .s0 else .s1

/-! ## Positions in the receive buffer (20_memory.md R51, 44_sequencer_and_system.md R179) -/

/-- The address of window byte `i` of half `h`: `H * h + i`, that is `h ++ i` as an 8-bit value (10_state.md R44). -/
def windowAddr (h : Half) (i : BitVec 7) : RxAddr := h ++ i

/-- The half an address lies in: 0 to `H - 1` is half 0, `H` to `N - 1` is half 1 (20_memory.md R51). -/
def halfOf (a : RxAddr) : Half := a.extractLsb' 7 1

/-! ## Register codes (10_state.md R36) -/

/-- `MODE[1:0]` (10_state.md R36). -/
def Mode.code : Mode → BitVec 2
  | .off => 0
  | .run => 1
  | .fatal => 2

/-- `FCAUSE[2:0]` (60_exceptions.md R187). -/
def Cause.code : Cause → BitVec 3
  | .none => 0
  | .chan => 1
  | .task => 2
  | .wset => 3
  | .rxst => 4
  | .txst => 5

/-- `FSIDE[0]` (10_state.md R36). -/
def sideCode : Side → BitVec 1
  | .s0 => 0
  | .s1 => 1

/-- `PH[s]` as a bit (10_state.md R36). -/
def Phase.code : Phase → BitVec 1
  | .idle => 0
  | .scan => 1

end Machine
end Sys2Proof
end

