-- ==== Sys2Proof/Machine/Flags.lean ====
section
/-! DEFINITION. The conditions computed from the state (10_state.md R35), the tests of the reassembler
(41_reassembler.md R122, R124), and the enabling condition of every operation (44_sequencer_and_system.md R166) as the
reason it is refused, `none` when it is enabled. -/

namespace Sys2Proof
namespace Machine

/-! ## Conditions computed from the queue count (10_state.md R35) -/

/-- `QNE[s]`: the inbound queue has data, `QCNT[s] >= 1` (42_transfer_queue.md R148). -/
def qne (σ : State) (s : Side) : Bool := decide (1 ≤ (σ.side s).qcnt.toNat)

/-- `QFULL[s]`: `QCNT[s] = M`. -/
def qfull (σ : State) (s : Side) : Bool := decide ((σ.side s).qcnt.toNat = Config.M)

/-- `QFree(s) = M - QCNT[s]` (42_transfer_queue.md R142). -/
def qFree (σ : State) (s : Side) : Nat := Config.M - (σ.side s).qcnt.toNat

/-! ## Tests of the reassembler -/

/-- `last`: the index is that of the window's final byte, `i = H - 1` (41_reassembler.md R124). -/
def isLast (i : BitVec 7) : Bool := decide (i.toNat = Config.H - 1)

/-- The append test of the byte `b` at index `i` with the byte `p` before it (41_reassembler.md R122). -/
def appendTest (i : BitVec 7) (b p : Byte) : Bool :=
  decide (b ≠ 0) || (decide (0 < i.toNat) && decide (p ≠ 0))

/-- The flush test with the count `c` after the append (41_reassembler.md R124). -/
def flushTest (c : BitVec 5) (last : Bool) : Bool :=
  decide (c.toNat = Config.L) || (last && decide (0 < c.toNat))

/-! ## Enabling conditions (44_sequencer_and_system.md R166) -/

/-- `MODE = RUN`, the enabling condition of the environment's operations `DMAWR`, `RXHALF`, `RXFULL`, `TXDONE`. -/
def guardRun (σ : State) : Option Refusal :=
  if σ.mode ≠ .run then some .modeNotRun else none

/-- `ENABLE`: `MODE = OFF`. -/
def guardEnable (σ : State) : Option Refusal :=
  if σ.mode ≠ .off then some .modeNotOff else none

/-- `NTAKE s`: `MODE = RUN` and `PH[s] = IDLE` and `NV[s] = 1`. -/
def guardNtake (s : Side) (σ : State) : Option Refusal :=
  if σ.mode ≠ .run then some .modeNotRun
  else if (σ.side s).ph ≠ .idle then some .passUnderWay
  else if (σ.side s).nv = false then some .slotEmpty
  else none

/-- `RSTEP s`: `MODE = RUN` and `PH[s] = SCAN`. -/
def guardRstep (s : Side) (σ : State) : Option Refusal :=
  if σ.mode ≠ .run then some .modeNotRun
  else if (σ.side s).ph ≠ .scan then some .noPassUnderWay
  else none

/-- `TXISSUE s`: `MODE = RUN` and `PH[s] = IDLE` and `QCNT[s] >= 1` and `TXF[s] = 0`. -/
def guardTxissue (s : Side) (σ : State) : Option Refusal :=
  if σ.mode ≠ .run then some .modeNotRun
  else if (σ.side s).ph ≠ .idle then some .passUnderWay
  else if qne σ s = false then some .queueEmpty
  else if (σ.side s).txf then some .flagSet
  else none

/-- `TXDEFER s`: `MODE = RUN` and `PH[s] = IDLE` and `QCNT[s] >= 1` and `TXF[s] = 1`. -/
def guardTxdefer (s : Side) (σ : State) : Option Refusal :=
  if σ.mode ≠ .run then some .modeNotRun
  else if (σ.side s).ph ≠ .idle then some .passUnderWay
  else if qne σ s = false then some .queueEmpty
  else if (σ.side s).txf = false then some .flagClear
  else none

/-- The outcome of an operation under its guard: refused for the guard's reason, else the operation's own outcome
(00_scope.md R13). -/
def whenEnabled (guard : Option Refusal) (o : Host.Outcome State Fault Refusal) :
    Host.Outcome State Fault Refusal :=
  match guard with
  | some r => .refused r
  | none => o

end Machine
end Sys2Proof
end

