-- ==== Sys2Proof/Machine/Ops.lean ====
section
/-! DEFINITION. The named operations over the memories and registers: the receive buffer, the notifier's, the queue's and
the reassembler's primitives, raising the fatal condition and resetting, the ports, and taking the next operation word. -/

namespace Sys2Proof
namespace Machine

/-! ## The receive buffer as a list of written bytes -/

/-- The byte listed at an address, if that address has been written since reset. -/
def memRead? : List Host.Cell → Nat → Option Byte
  | [], _ => none
  | (k, b) :: m, a => if a = k then some b else memRead? m a

/-- The list with the byte at an address written, in rising order of addresses. -/
def memWrite : List Host.Cell → Nat → Byte → List Host.Cell
  | [], a, d => [(a, d)]
  | (k, b) :: m, a, d =>
    if a < k then (a, d) :: (k, b) :: m
    else if a = k then (k, d) :: m
    else (k, b) :: memWrite m a d

/-- The canonical form of a receive buffer's list: addresses strictly rising and all below `N`. -/
def Memory.wf (m : List Host.Cell) : Bool :=
  decide (m.Pairwise (fun x y => x.1 < y.1)) && m.all (fun x => decide (x.1 < Config.N))

/-- What an unlisted address reads as: the byte drawn at the last reset (10_state.md R43, R45; assumption log 4). -/
def rxUnlisted (draws : Nat) (s : Side) (a : RxAddr) : Byte := Config.freeRxByte draws s a.toNat

/-- `MemRead(RXBUF[s], a, 1)`: the byte last written to address `a`, or the one drawn at reset (20_memory.md R52). -/
def rxRead (σ : State) (s : Side) (a : RxAddr) : Byte :=
  (memRead? (σ.side s).rxbuf a.toNat).getD (rxUnlisted σ.draws s a)

/-- `MemWrite(RXBUF[s], a, 1, d)` (00_scope.md R12). -/
def rxWrite (σ : State) (s : Side) (a : RxAddr) (d : Byte) : State :=
  σ.setSide s { σ.side s with rxbuf := memWrite (σ.side s).rxbuf a.toNat d }

/-! ## The notifier (40_receive_and_notifier.md R100 to R102) -/

/-- `NPost(s, v)`: `NV[s] <- 1; NVAL[s] <- v` (R101). -/
def nPost (σ : State) (s : Side) (v : Half) : State :=
  σ.setSide s { σ.side s with nv := true, nval := v }

/-- `NTakeVal(s)`: returns `NVAL[s]` and does `NV[s] <- 0` (R102). -/
def nTakeVal (σ : State) (s : Side) : Half × State :=
  ((σ.side s).nval, σ.setSide s { σ.side s with nv := false })

/-! ## The transfer queue (42_transfer_queue.md R142 to R144) -/

/-- `QPush(t, f)`, called only with a free slot: the slot `QTAIL[t]` is overwritten whole, the tail steps mod `M`, the
count rises by 1 (R143). -/
def qPush (σ : State) (t : Side) (f : Frame) : State :=
  σ.setSide t { σ.side t with
    qmem := (σ.side t).qmem.setIfInBounds (σ.side t).qtail.toNat f
    qtail := (σ.side t).qtail + 1
    qcnt := (σ.side t).qcnt + 1 }

/-- The frame in the slot `QHEAD[s]` (R144). -/
def qHeadFrame (c : SideState) : Frame := c.qmem.getD c.qhead.toNat zeroFrame

/-- `QPop(s)`, called only with a frame held: the frame of the slot `QHEAD[s]`; the head steps mod `M`, the count falls
by 1, the slot's bytes stay (R144). -/
def qPop (σ : State) (s : Side) : Frame × State :=
  (qHeadFrame (σ.side s),
    σ.setSide s { σ.side s with qhead := (σ.side s).qhead + 1, qcnt := (σ.side s).qcnt - 1 })

/-- The abstract sequence `Qseq[s]`: the frames of the slots `QHEAD[s] + i mod M` for `i` below `QCNT[s]`, oldest first
(10_state.md R26). -/
def qseq (c : SideState) : List Frame :=
  (List.range c.qcnt.toNat).map
    (fun i => c.qmem.getD ((c.qhead.toNat + i) % Config.M) zeroFrame)

/-! ## The reassembler (41_reassembler.md R121 to R126) -/

/-- Start of a pass: `IDX[s] <- 0; CNT[s] <- 0; WB[s][k] <- 0` (R121; that the value is zero is the spec's own decision
D12, assumption log 10). -/
def startPass (σ : State) (s : Side) : State :=
  σ.setSide s { σ.side s with idx := 0, cnt := 0, wb := zeroFrame }

/-- The byte under the index of the pass: `b` of R127. -/
def scanByte (σ : State) (s : Side) : Byte :=
  rxRead σ s (windowAddr (σ.side s).sh (σ.side s).idx)

/-- The byte before it in the window, 0 where the index is 0: `p` of R127, read from `RXBUF[s]` at this step (R122). -/
def scanPrev (σ : State) (s : Side) : Byte :=
  if 0 < (σ.side s).idx.toNat then rxRead σ s (windowAddr (σ.side s).sh ((σ.side s).idx - 1)) else 0

/-- Whether this step appends its byte (R122). -/
def scanAppends (σ : State) (s : Side) : Bool :=
  appendTest (σ.side s).idx (scanByte σ s) (scanPrev σ s)

/-- The append action on the working buffer: `WB[s][CNT[s]] <- b` (R123). -/
def wbAfter (σ : State) (s : Side) : Frame :=
  if scanAppends σ s then (σ.side s).wb.setIfInBounds (σ.side s).cnt.toNat (scanByte σ s) else (σ.side s).wb

/-- The append action on the count: `CNT[s] + 1` (R123). -/
def cntAfter (σ : State) (s : Side) : BitVec 5 :=
  if scanAppends σ s then (σ.side s).cnt + 1 else (σ.side s).cnt

/-- Whether this step flushes (R124). -/
def scanFlushes (σ : State) (s : Side) : Bool :=
  flushTest (cntAfter σ s) (isLast (σ.side s).idx)

/-- The count a step leaves: 0 after a flush that reached `L`, pushed or dropped, else as it is (R125). -/
def cntLeft (c : BitVec 5) : BitVec 5 := if c.toNat = Config.L then 0 else c

/-- The flush action: the whole working buffer is pushed to the destination when that has a free slot, else dropped
(R124). -/
def flushTo (σ : State) (t : Side) (f : Frame) : State :=
  if 1 ≤ qFree σ t then qPush σ t f else σ

/-- Advance: the last index ends the pass and stays, any other steps by 1 (R126). -/
def advance (σ : State) (s : Side) : State :=
  if isLast (σ.side s).idx then σ.setSide s { σ.side s with ph := .idle }
  else σ.setSide s { σ.side s with idx := (σ.side s).idx + 1 }

/-- One byte of a pass (R127): append, flush to the peer's queue, counter, advance. -/
def scanStep (σ : State) (s : Side) : State :=
  let appended := σ.setSide s { σ.side s with wb := wbAfter σ s, cnt := cntLeft (cntAfter σ s) }
  let flushed := if scanFlushes σ s then flushTo appended (peer s) (wbAfter σ s) else appended
  advance flushed s

/-! ## The fatal condition (60_exceptions.md R186): taking it, and the only way out -/

/-- `raise Fatal(cause, side)`: `MODE <- FATAL; FCAUSE <- cause; FSIDE <- side`; nothing is saved, and what the
operation wrote before stays written (R186). -/
def raiseFatal (σ : State) (cause : Cause) (side : Side) : State :=
  { σ with mode := .fatal, fcause := cause, fside := side }

/-- One side after the operation RESET: the values of 10_state.md R43, the unspecified ones drawn (assumption log 3). -/
def resetSide (draws : Nat) (s : Side) : SideState where
  rxbuf := []
  nv := false
  nval := Config.freeNval draws s
  qmem := Config.freeQmem draws s
  qhead := 0
  qtail := 0
  qcnt := 0
  txf := false
  txbuf := Config.freeTxbuf draws s
  ph := .idle
  sh := Config.freeSh draws s
  idx := Config.freeIdx draws s
  cnt := 0#1 ++ Config.freeCnt draws s
  wb := Config.freeWb draws s

/-- Hardware reset (44_sequencer_and_system.md R168): every state element at its after-RESET value; the model's own
fields keep what is still to be presented and what was driven, and the counter of drawings advances. -/
def resetBlock (σ : State) : State where
  mode := .off
  fcause := .none
  fside := .s0
  ctx0 := resetSide (σ.draws + 1) .s0
  ctx1 := resetSide (σ.draws + 1) .s1
  trace := σ.trace
  outs := σ.outs
  draws := σ.draws + 1

/-- One side's part of a successful initialisation (44_sequencer_and_system.md R167). -/
def initSide (c : SideState) : SideState :=
  { c with nv := false, qcnt := 0, qhead := 0, qtail := 0, txf := false, ph := .idle }

/-! ## The ports (00_scope.md R10) -/

/-- `output P(args)`: one event on an output port group (00_scope.md R12). -/
def output (σ : State) (e : PortEvent) : State := { σ with outs := σ.outs ++ [e] }

/-- The fatal port: `fatal`, `fatal_cause`, `fatal_side`, a level of `MODE = FATAL` (00_scope.md R10). -/
def fatalPort (σ : State) : BitVec 1 × BitVec 3 × BitVec 1 :=
  (if σ.mode = .fatal then 1 else 0, σ.fcause.code, sideCode σ.fside)

/-- The data of the transmit port of a side: the `L` bytes of `TXBUF[s]` (10_state.md R28). -/
def txPort (σ : State) (s : Side) : Frame := (σ.side s).txbuf

/-! ## Taking the next operation word (30_encoding.md R83, R88) -/

/-- The next operation presented and the state with its word taken from the trace, or why there is none
(assumption log 1). -/
def fetch (σ : State) : Except NoOp (Instr × State) :=
  match decode σ.trace with
  | .ok (i, rest) => .ok (i, { σ with trace := rest })
  | .error why => .error why

/-- The state with a table word presented next, before what the trace already holds. -/
def presentWord (σ : State) (nbits w : Nat) : State :=
  { σ with trace := bytesOfWord (tableWord nbits w) ++ σ.trace }

end Machine
end Sys2Proof
end

