-- ==== Sys2Proof/Machine/Reassembler.lean ====
section
/-! DEFINITION. The reassembler family (41_reassembler.md): `RSTEP`, and the pass as one function of its window. -/

namespace Sys2Proof
namespace Machine

/-- `RSTEP s` (41_reassembler.md R127): processes the byte at window index `IDX[s]`. An append at `CNT[s] >= L`, which no
run reaches (10_state.md R32), has no index in the working buffer and faults (assumption log 8). -/
def execRstep (s : Side) (σ : State) : Host.Outcome State Fault Refusal :=
  whenEnabled (guardRstep s σ)
    (if scanAppends σ s && decide (Config.L ≤ (σ.side s).cnt.toNat) then .fault .workingBufferOverrun
     else .next (scanStep σ s))

/-! ## The pass as one function (41_reassembler.md R132) -/

/-- `Frames` from a window index on: `left` bytes are still to come, `prev` is the byte before them (0 at index 0, which
makes the append test of R122 the same), `wb` and `c` the working buffer and its count. Each flush is listed with its
count, so that its logical part can be told (R134). -/
def flushesFrom (prev : Byte) (wb : Frame) (c : Nat) : List Byte → List (Frame × Nat)
  | [] => []
  | b :: left =>
    let appends := decide (b ≠ 0) || decide (prev ≠ 0)
    let wb' := if appends then wb.setIfInBounds c b else wb
    let c' := if appends then c + 1 else c
    let rest := flushesFrom b wb' (if c' = Config.L then 0 else c') left
    if c' = Config.L || (left.isEmpty && decide (0 < c')) then (wb', c') :: rest else rest

/-- The flushes of a pass over a window, each frame with its count (R132, R134). -/
def flushes (win : List Byte) : List (Frame × Nat) := flushesFrom 0 zeroFrame 0 win

/-- `Frames(win)`: the frames a pass attempts to flush (41_reassembler.md R132). -/
def frames (win : List Byte) : List Frame := (flushes win).map Prod.fst

/-- The logical part of a flush: the first `c` bytes of its frame (41_reassembler.md R134). -/
def logicalPart (fl : Frame × Nat) : List Byte := fl.1.toList.take fl.2

/-- The content of a half of `RXBUF[s]`, lower address first: `win[i] = RXBUF[s][H * h + i]` (41_reassembler.md R120). -/
def window (σ : State) (s : Side) (h : Half) : List Byte :=
  (List.range Config.H).map (fun i => rxRead σ s (windowAddr h (BitVec.ofNat 7 i)))

end Machine
end Sys2Proof
end

