-- ==== Sys2Proof/Machine/ReceiveNotifier.lean ====
section
/-! DEFINITION. The receive and notifier family (40_receive_and_notifier.md): `DMAWR`, `RXHALF`, `RXFULL`, `NTAKE`. -/

namespace Sys2Proof
namespace Machine

/-- `DMAWR s, a, d` (40_receive_and_notifier.md R103): the receive DMA stores one byte in the ring. -/
def execDmawr (s : Side) (a : RxAddr) (d : Byte) (σ : State) : Host.Outcome State Fault Refusal :=
  whenEnabled (guardRun σ) (.next (rxWrite σ s a d))

/-- `RXHALF s` (40_receive_and_notifier.md R104): posts 0, the first half is ready (R107, assumption log 11). -/
def execRxhalf (s : Side) (σ : State) : Host.Outcome State Fault Refusal :=
  whenEnabled (guardRun σ) (.next (nPost σ s 0))

/-- `RXFULL s` (40_receive_and_notifier.md R105): posts 1, the second half is ready (R107, assumption log 11). -/
def execRxfull (s : Side) (σ : State) : Host.Outcome State Fault Refusal :=
  whenEnabled (guardRun σ) (.next (nPost σ s 1))

/-- `NTAKE s` once enabled: `v <- NTakeVal(s); PH[s] <- SCAN; SH[s] <- v`, then the start of a pass. -/
def takeAndStart (s : Side) (σ : State) : State :=
  let (v, taken) := nTakeVal σ s
  startPass (taken.setSide s { taken.side s with ph := .scan, sh := v }) s

/-- `NTAKE s` (40_receive_and_notifier.md R106): the sequencer takes the notification and starts a pass over that half. -/
def execNtake (s : Side) (σ : State) : Host.Outcome State Fault Refusal :=
  whenEnabled (guardNtake s σ) (.next (takeAndStart s σ))

end Machine
end Sys2Proof
end

