-- ==== Sys2Proof/Machine/SequencerSystem.lean ====
section
/-! DEFINITION. The system family (44_sequencer_and_system.md): `ENABLE`, `RESET`. -/

namespace Sys2Proof
namespace Machine

/-- `ENABLE` with `fc = 0`: both sides initialised, reception started on both, `MODE <- RUN`
(44_sequencer_and_system.md R167). -/
def initialise (σ : State) : State :=
  let inited := (σ.setSide .s0 (initSide (σ.side .s0))).setSide .s1 (initSide (σ.side .s1))
  let started := output (output inited (.rxStart .s0 Config.N)) (.rxStart .s1 Config.N)
  { started with mode := .run }

/-- `ENABLE fc` (44_sequencer_and_system.md R167): the initialisation entry point with its outcome. A result code that
is no legal operand (30_encoding.md R86) is refused; the decoder answers none. -/
def execEnable (fc : BitVec 4) (σ : State) : Host.Outcome State Fault Refusal :=
  whenEnabled (guardEnable σ)
    (if fcLegal fc then
       if fc = 0 then .next (initialise σ) else .next (raiseFatal σ (fcCause fc) (fcSide fc))
     else .refused .resultCodeNotLegal)

/-- `RESET` (44_sequencer_and_system.md R168): enabled always, in every `MODE`. -/
def execReset (σ : State) : Host.Outcome State Fault Refusal :=
  .next (resetBlock σ)

end Machine
end Sys2Proof
end

