-- ==== Sys2Proof/Machine/TransmitFlow.lean ====
section
/-! DEFINITION. The transmit flow family (43_transmit_flow.md): `TXISSUE`, `TXDEFER`, `TXDONE`. -/

namespace Sys2Proof
namespace Machine

/-- `TXISSUE s` up to the driver's answer: pop, set the flag, fill the transmit buffer, drive `tx_start[s]`
(43_transmit_flow.md R151). -/
def startTransmit (s : Side) (σ : State) : State :=
  let (f, popped) := qPop σ s
  output (popped.setSide s { popped.side s with txf := true, txbuf := f }) (.txStart s f Config.L)

/-- The driver's answer: `error` raises `Fatal(5, s)` after the pop, the flag and the buffer write
(43_transmit_flow.md R151, R154). -/
def afterAnswer (s : Side) (e : Answer) (σ : State) : State :=
  match e with
  | .ok => σ
  | .error => raiseFatal σ .txst s

/-- `TXISSUE s, e` (43_transmit_flow.md R151): takes the oldest frame of the inbound queue and starts its transmission. -/
def execTxissue (s : Side) (e : Answer) (σ : State) : Host.Outcome State Fault Refusal :=
  whenEnabled (guardTxissue s σ) (.next (afterAnswer s e (startTransmit s σ)))

/-- `TXDEFER s` (43_transmit_flow.md R152): no state changes, no output. -/
def execTxdefer (s : Side) (σ : State) : Host.Outcome State Fault Refusal :=
  whenEnabled (guardTxdefer s σ) (.next σ)

/-- `TXDONE s` (43_transmit_flow.md R153): `TXF[s] <- 0`; a clear flag stays clear (R157). -/
def execTxdone (s : Side) (σ : State) : Host.Outcome State Fault Refusal :=
  whenEnabled (guardRun σ) (.next (σ.setSide s { σ.side s with txf := false }))

end Machine
end Sys2Proof
end

