-- ==== Sys2Proof/Machine/Dispatch.lean ====
section
/-! DEFINITION. One arm per operation, each one direct call of that operation's meaning. -/

namespace Sys2Proof
namespace Machine

/-- The effect of one operation presented to the block in a state (00_scope.md R9, R13). -/
def exec (i : Instr) (s : State) : Host.Outcome State Fault Refusal :=
  match i with
  | .reset => Sys2Proof.Machine.execReset s
  | .enable fc => Sys2Proof.Machine.execEnable fc s
  | .dmawr x a d => Sys2Proof.Machine.execDmawr x a d s
  | .rxhalf x => Sys2Proof.Machine.execRxhalf x s
  | .rxfull x => Sys2Proof.Machine.execRxfull x s
  | .txdone x => Sys2Proof.Machine.execTxdone x s
  | .ntake x => Sys2Proof.Machine.execNtake x s
  | .rstep x => Sys2Proof.Machine.execRstep x s
  | .txissue x e => Sys2Proof.Machine.execTxissue x e s
  | .txdefer x => Sys2Proof.Machine.execTxdefer x s

end Machine
end Sys2Proof
end

