-- ==== Sys2Proof/Machine/Step.lean ====
section
/-! DEFINITION. One step: the next operation word of the trace is taken, decoded and run. -/

namespace Sys2Proof
namespace Machine

/-- One step of the machine: the operation presented next acts on the state (00_scope.md R9); where there is none, or its
word is illegal, the step is refused by name (30_encoding.md R87; assumption log 1). -/
def step (σ : State) : Host.Outcome State Fault Refusal :=
  match fetch σ with
  | .ok (i, taken) => exec i taken
  | .error why => .refused (.noOperation why)

/-- The state with a table word presented as the next operation. -/
def State.withFetchWord (s : State) (nbits w : Nat) : State := presentWord s nbits w

end Machine
end Sys2Proof
end

