-- ==== Sys2Proof/Machine/Trace.lean ====
section
/-! DEFINITION. Sequences of operations: a trace every operation of which is accepted, a trace in which a refused operation
changes nothing, and the pseudo-operations of 30_encoding.md R91. -/

namespace Sys2Proof
namespace Machine

/-- One operation presented to the block: a step goes on, a refused operation changes nothing (00_scope.md R13). -/
def present (i : Instr) (σ : State) : State :=
  match exec i σ with
  | .next t => t
  | .fault _ => σ
  | .refused _ => σ

/-- Whether an operation presented in a state is a step (00_scope.md R13), a fatal condition taken included. -/
def takesStep (i : Instr) (σ : State) : Bool :=
  match exec i σ with
  | .next _ => true
  | .fault _ => false
  | .refused _ => false

/-- A trace presented to the block operation by operation. -/
def presentAll : List Instr → State → State
  | [], σ => σ
  | i :: tr, σ => presentAll tr (present i σ)

/-- The state a trace leaves when every operation of it is enabled at its turn (30_encoding.md R91). -/
def accept : List Instr → State → Option State
  | [], σ => some σ
  | i :: tr, σ =>
    match exec i σ with
    | .next t => accept tr t
    | .fault _ => none
    | .refused _ => none

/-! ## Pseudo-operations (30_encoding.md R91) -/

/-- The six pseudo-operations of 30_encoding.md R91. -/
inductive Pseudo where
  /-- `FILL s, h, b0 ... bk`. -/
  | fill (s : Side) (h : Half) (bytes : List Byte)
  /-- `FILLN s, h, v0`. -/
  | filln (s : Side) (h : Half) (v0 : Byte)
  /-- `RXEVT s, h`. -/
  | rxevt (s : Side) (h : Half)
  /-- `SCAN s`. -/
  | scan (s : Side)
  /-- `RECV s, h, b0 ... bk`. -/
  | recv (s : Side) (h : Half) (bytes : List Byte)
  /-- `SEND s`. -/
  | send (s : Side)
deriving DecidableEq, Repr

/-- One DMA write per index of a half. -/
def fillOps (s : Side) (h : Half) (byteAt : Nat → Byte) : List Instr :=
  (List.range Config.H).map (fun i => .dmawr s (windowAddr h (BitVec.ofNat 7 i)) (byteAt i))

/-- The byte `FILLN` writes at index `i`: `((v0 - 1 + i) mod 255) + 1`, the subtraction taken mod 255 (assumption log 16). -/
def countingByte (v0 : Byte) (i : Nat) : Byte := BitVec.ofNat 8 ((v0.toNat + 254 + i) % 255 + 1)

/-- The completion event of a half. -/
def eventOf (s : Side) (h : Half) : Instr := if h = 0 then .rxhalf s else .rxfull s

/-- One whole pass with nothing interleaved. -/
def scanOps (s : Side) : List Instr := .ntake s :: List.replicate Config.H (.rstep s)

/-- The expansion of a pseudo-operation (30_encoding.md R91). -/
def Pseudo.expand : Pseudo → List Instr
  | .fill s h bytes => fillOps s h (fun i => bytes.getD i 0)
  | .filln s h v0 => fillOps s h (countingByte v0)
  | .rxevt s h => [eventOf s h]
  | .scan s => scanOps s
  | .recv s h bytes => fillOps s h (fun i => bytes.getD i 0) ++ eventOf s h :: scanOps s
  | .send s => [.txissue s .ok, .txdone s]

end Machine
end Sys2Proof
end

