-- ==== Sys2Proof/Machine/TraceText.lean ====
section
/-! DEFINITION. The trace syntax of 30_encoding.md R90 and R91: one line of text to the operations it stands for, and an
operation to its line. Text is a list of characters. Assumption log 15. -/

namespace Sys2Proof
namespace Machine

/-! ## Reading a line -/

/-- A word, a character in single quotes, a comma, or a quote that is not closed after one character. -/
inductive Tok where
  | word (cs : List Char)
  | quoted (c : Char)
  | comma
  | badQuote
deriving DecidableEq, Repr

/-- Where a reader of characters stands: in plain text with a word gathered in reverse, just after an opening quote, or
after the character that follows one. -/
inductive LexMode where
  | plain (acc : List Char)
  | opened
  | held (c : Char)
deriving DecidableEq, Repr

/-- The tokens with a word gathered in reverse put before them. -/
def closeWord (acc : List Char) (toks : List Tok) : List Tok :=
  if acc = [] then toks else .word acc.reverse :: toks

/-- The tokens of a line; `;` starts a comment to the end of the line, a character in single quotes stands for itself. R90
does not say which of the two holds for a `;` in single quotes: that it is the character 0x3B, and starts no comment, is the
model's choice (DESIGN CHOICE, assumption log 15). -/
def lex : LexMode → List Char → List Tok
  | .plain acc, [] => closeWord acc []
  | .opened, [] => [.badQuote]
  | .held _, [] => [.badQuote]
  | .plain acc, c :: rest =>
    if c.toNat = 39 then closeWord acc (lex .opened rest)
    else if c = ';' then closeWord acc []
    else if c = ',' then closeWord acc (.comma :: lex (.plain []) rest)
    else if c = ' ' ∨ c.toNat = 9 then closeWord acc (lex (.plain []) rest)
    else lex (.plain (c :: acc)) rest
  | .opened, c :: rest => lex (.held c) rest
  | .held x, c :: rest => if c.toNat = 39 then .quoted x :: lex (.plain []) rest else [.badQuote]

/-- The operands: the tokens between the commas. -/
def groups : List Tok → List (List Tok)
  | [] => [[]]
  | .comma :: rest => [] :: groups rest
  | t :: rest =>
    match groups rest with
    | g :: gs => (t :: g) :: gs
    | [] => [[t]]

/-- The value of a digit in a base up to 16. -/
def digit? (base : Nat) (c : Char) : Option Nat :=
  let n := c.toNat
  let v := if 48 ≤ n ∧ n ≤ 57 then n - 48
    else if 97 ≤ n ∧ n ≤ 102 then n - 87
    else if 65 ≤ n ∧ n ≤ 70 then n - 55
    else 16
  if v < base then some v else none

/-- The number a list of digits writes, most significant first. -/
def digits? (base : Nat) : Nat → List Char → Option Nat
  | acc, [] => some acc
  | acc, c :: rest =>
    match digit? base c with
    | some v => digits? base (acc * base + v) rest
    | none => none

/-- A decimal number or a `0x` hexadecimal one (R90). -/
def number? : List Char → Option Nat
  | [] => none
  | [c] => digits? 10 0 [c]
  | c :: x :: rest =>
    if c = '0' ∧ x = 'x' then (if rest = [] then none else digits? 16 0 rest) else digits? 10 0 (c :: x :: rest)

/-- A number 0 to 255. -/
def byteNumber? (cs : List Char) : Option Byte :=
  match number? cs with
  | some n => if n ≤ 255 then some (BitVec.ofNat 8 n) else none
  | none => none

/-- The operand `s`: `0` or `1`. -/
def sideTok? : Tok → Option Side
  | .word ['0'] => some .s0
  | .word ['1'] => some .s1
  | _ => none

/-- The half `h` of a pseudo-operation: `0` or `1` (DESIGN CHOICE, assumption log 15). -/
def halfTok? : Tok → Option Half
  | .word ['0'] => some 0
  | .word ['1'] => some 1
  | _ => none

/-- The operand `a`: a number 0 to 255. -/
def addrTok? : Tok → Option RxAddr
  | .word cs => byteNumber? cs
  | _ => none

/-- The operand `d`: a number 0 to 255 or one ASCII character in single quotes. -/
def dataTok? : Tok → Option Byte
  | .word cs => byteNumber? cs
  | .quoted c => if c.toNat < 128 then some (BitVec.ofNat 8 c.toNat) else none
  | .comma => none
  | .badQuote => none

/-- The operand `e`: `ok` or `err`. -/
def answerTok? : Tok → Option Answer
  | .word ['o', 'k'] => some .ok
  | .word ['e', 'r', 'r'] => some .error
  | _ => none

/-- The name of a cause in the operand `fc`: `chan`, `task`, `wset`, `rxst` for causes 1 to 4. -/
def causeName? : Tok → Option (BitVec 3)
  | .word ['c', 'h', 'a', 'n'] => some 1
  | .word ['t', 'a', 's', 'k'] => some 2
  | .word ['w', 's', 'e', 't'] => some 3
  | .word ['r', 'x', 's', 't'] => some 4
  | _ => none

/-- The operand `fc`: `ok`, or a cause's name and a side. -/
def fcGroup? : List Tok → Option (BitVec 4)
  | [.word ['o', 'k']] => some 0
  | [c, t] =>
    match causeName? c, sideTok? t with
    | some code, some side => some (sideCode side ++ code)
    | _, _ => none
  | _ => none

/-- The bytes of a pseudo-operation's last operand, each written as `d` is (DESIGN CHOICE, assumption log 15). -/
def bytesGroup? : List Tok → Option (List Byte)
  | [] => some []
  | t :: rest =>
    match dataTok? t, bytesGroup? rest with
    | some b, some bs => some (b :: bs)
    | _, _ => none

/-- The ten mnemonics and the six of R91. -/
inductive Name where
  | reset | enable | dmawr | rxhalf | rxfull | txdone | ntake | rstep | txissue | txdefer
  | fill | filln | rxevt | scan | recv | send
deriving DecidableEq, Repr

/-- The spelling of a mnemonic, in capitals. -/
def Name.spelling : Name → List Char
  | .reset => ['R', 'E', 'S', 'E', 'T']
  | .enable => ['E', 'N', 'A', 'B', 'L', 'E']
  | .dmawr => ['D', 'M', 'A', 'W', 'R']
  | .rxhalf => ['R', 'X', 'H', 'A', 'L', 'F']
  | .rxfull => ['R', 'X', 'F', 'U', 'L', 'L']
  | .txdone => ['T', 'X', 'D', 'O', 'N', 'E']
  | .ntake => ['N', 'T', 'A', 'K', 'E']
  | .rstep => ['R', 'S', 'T', 'E', 'P']
  | .txissue => ['T', 'X', 'I', 'S', 'S', 'U', 'E']
  | .txdefer => ['T', 'X', 'D', 'E', 'F', 'E', 'R']
  | .fill => ['F', 'I', 'L', 'L']
  | .filln => ['F', 'I', 'L', 'L', 'N']
  | .rxevt => ['R', 'X', 'E', 'V', 'T']
  | .scan => ['S', 'C', 'A', 'N']
  | .recv => ['R', 'E', 'C', 'V']
  | .send => ['S', 'E', 'N', 'D']

/-- All names. -/
def allNames : List Name :=
  [.reset, .enable, .dmawr, .rxhalf, .rxfull, .txdone, .ntake, .rstep, .txissue, .txdefer,
   .fill, .filln, .rxevt, .scan, .recv, .send]

/-- The name a word spells. -/
def name? (cs : List Char) : Option Name := allNames.find? (fun n => decide (n.spelling = cs))

/-- An operation whose one operand is a side. -/
def sideLine? (mk : Side → List Instr) : List (List Tok) → Option (List Instr)
  | [[t]] => (sideTok? t).map mk
  | _ => none

/-- The operations a mnemonic and its operands stand for (R90, R91). R90 gives text forms for `s`, `a`, `d`, `e` and `fc`
only: that `v0` of `FILLN` and the bytes of `FILL` and `RECV` are written as `d` is, a quoted character included, and the
half `h` as `0` or `1`, is the model's choice (DESIGN CHOICE, assumption log 15). -/
def line? (n : Name) (gs : List (List Tok)) : Option (List Instr) :=
  match n with
  | .reset => if gs = [[]] then some [.reset] else none
  | .enable =>
    match gs with
    | [g] => (fcGroup? g).map (fun fc => [.enable fc])
    | _ => none
  | .dmawr =>
    match gs with
    | [[s], [a], [d]] =>
      match sideTok? s, addrTok? a, dataTok? d with
      | some s, some a, some d => some [.dmawr s a d]
      | _, _, _ => none
    | _ => none
  | .rxhalf => sideLine? (fun s => [.rxhalf s]) gs
  | .rxfull => sideLine? (fun s => [.rxfull s]) gs
  | .txdone => sideLine? (fun s => [.txdone s]) gs
  | .ntake => sideLine? (fun s => [.ntake s]) gs
  | .rstep => sideLine? (fun s => [.rstep s]) gs
  | .txissue =>
    match gs with
    | [[s], [e]] =>
      match sideTok? s, answerTok? e with
      | some s, some e => some [.txissue s e]
      | _, _ => none
    | _ => none
  | .txdefer => sideLine? (fun s => [.txdefer s]) gs
  | .fill =>
    match gs with
    | [[s], [h], bs] =>
      match sideTok? s, halfTok? h, bytesGroup? bs with
      | some s, some h, some bs => if bs.length ≤ Config.H then some (Pseudo.fill s h bs).expand else none
      | _, _, _ => none
    | _ => none
  | .filln =>
    match gs with
    | [[s], [h], [v]] =>
      match sideTok? s, halfTok? h, dataTok? v with
      | some s, some h, some v => some (Pseudo.filln s h v).expand
      | _, _, _ => none
    | _ => none
  | .rxevt =>
    match gs with
    | [[s], [h]] =>
      match sideTok? s, halfTok? h with
      | some s, some h => some (Pseudo.rxevt s h).expand
      | _, _ => none
    | _ => none
  | .scan => sideLine? (fun s => (Pseudo.scan s).expand) gs
  | .recv =>
    match gs with
    | [[s], [h], bs] =>
      match sideTok? s, halfTok? h, bytesGroup? bs with
      | some s, some h, some bs => if bs.length ≤ Config.H then some (Pseudo.recv s h bs).expand else none
      | _, _, _ => none
    | _ => none
  | .send => sideLine? (fun s => (Pseudo.send s).expand) gs

/-- The operations a line of a trace stands for, none where it is not of the syntax; a line that holds a comment only,
or nothing, stands for no operation (R90). R90 does not say which character ends a line: the line is given here with its
break removed, and a line feed or carriage return left in it is read as a letter of a word (DESIGN CHOICE, assumption
log 15). -/
def parseLine (line : List Char) : Option (List Instr) :=
  match lex (.plain []) line with
  | [] => some []
  | .word cs :: rest =>
    match name? cs with
    | some n => line? n (groups rest)
    | none => none
  | .quoted _ :: _ => none
  | .comma :: _ => none
  | .badQuote :: _ => none

/-! ## Writing a line -/

/-- The character of a hexadecimal digit. -/
def hexDigit (n : Nat) : Char := if n < 10 then Char.ofNat (48 + n) else Char.ofNat (55 + n)

/-- A byte as `0x` and two hexadecimal digits. -/
def hexByte (b : Byte) : List Char := ['0', 'x', hexDigit (b.toNat / 16), hexDigit (b.toNat % 16)]

/-- A side as `0` or `1`. -/
def sideText : Side → List Char
  | .s0 => ['0']
  | .s1 => ['1']

/-- A driver's answer as `ok` or `err`. -/
def answerText : Answer → List Char
  | .ok => ['o', 'k']
  | .error => ['e', 'r', 'r']

/-- A result code as `ok` or a cause's name and a side; a code that is not legal has no name and is written as the empty
text. -/
def fcText (fc : BitVec 4) : List Char :=
  if fc = 0 then ['o', 'k']
  else
    let side := ' ' :: sideText (fcSide fc)
    match fcCause fc with
    | .chan => ['c', 'h', 'a', 'n'] ++ side
    | .task => ['t', 'a', 's', 'k'] ++ side
    | .wset => ['w', 's', 'e', 't'] ++ side
    | .rxst => ['r', 'x', 's', 't'] ++ side
    | .none => []
    | .txst => []

/-- The line of a mnemonic with one operand. -/
def oneOperand (n : Name) (operand : List Char) : List Char := n.spelling ++ ' ' :: operand

/-- The line of an operation (R90), numbers in hexadecimal. -/
def textOf : Instr → List Char
  | .reset => Name.reset.spelling
  | .enable fc => oneOperand .enable (fcText fc)
  | .dmawr s a d => oneOperand .dmawr (sideText s ++ [',', ' '] ++ hexByte a ++ [',', ' '] ++ hexByte d)
  | .rxhalf s => oneOperand .rxhalf (sideText s)
  | .rxfull s => oneOperand .rxfull (sideText s)
  | .txdone s => oneOperand .txdone (sideText s)
  | .ntake s => oneOperand .ntake (sideText s)
  | .rstep s => oneOperand .rstep (sideText s)
  | .txissue s e => oneOperand .txissue (sideText s ++ [',', ' '] ++ answerText e)
  | .txdefer s => oneOperand .txdefer (sideText s)

end Machine
end Sys2Proof
end

