-- ==== Sys2Proof/Safety.lean ====
section
/-! DEFINITION. What claims about the block are stated in: the enabling table, the invariant of reachable states, the good
ends of a run, and the hazards and the environment contract as predicates on traces. None of them is a condition of a
step. -/

namespace Sys2Proof
namespace Machine

/-! ## Enabling conditions as a table (44_sequencer_and_system.md R166) -/

/-- The enabling condition of an operation, row by row of R166. -/
def Enabled : Instr → State → Prop
  | .reset, _ => True
  | .enable _, σ => σ.mode = .off
  | .dmawr _ _ _, σ => σ.mode = .run
  | .rxhalf _, σ => σ.mode = .run
  | .rxfull _, σ => σ.mode = .run
  | .txdone _, σ => σ.mode = .run
  | .ntake s, σ => σ.mode = .run ∧ (σ.side s).ph = .idle ∧ (σ.side s).nv = true
  | .rstep s, σ => σ.mode = .run ∧ (σ.side s).ph = .scan
  | .txissue s _, σ =>
    σ.mode = .run ∧ (σ.side s).ph = .idle ∧ 1 ≤ (σ.side s).qcnt.toNat ∧ (σ.side s).txf = false
  | .txdefer s, σ =>
    σ.mode = .run ∧ (σ.side s).ph = .idle ∧ 1 ≤ (σ.side s).qcnt.toNat ∧ (σ.side s).txf = true

/-- An operation is refused in a state, for some reason. -/
def Refused (i : Instr) (σ : State) : Prop := ∃ r, exec i σ = .refused r

/-! ## The invariant of reachable states (10_state.md R39) -/

/-- One side's part: the queue's pointers and count agree, the counters are in range, the receive buffer's list keeps
its canonical form. -/
structure SideInv (c : SideState) : Prop where
  count_le : c.qcnt.toNat ≤ Config.M
  tail_eq : c.qtail.toNat = (c.qhead.toNat + c.qcnt.toNat) % Config.M
  cnt_lt : c.cnt.toNat ≤ Config.L - 1
  idx_lt : c.idx.toNat ≤ Config.H - 1
  mem_wf : Memory.wf c.rxbuf = true

/-- One side before initialisation: slot empty, queue empty, flag clear, `IDLE`. -/
structure SideOff (c : SideState) : Prop where
  slot : c.nv = false
  queue : c.qcnt = 0
  flag : c.txf = false
  phase : c.ph = .idle

/-- The invariant (10_state.md R39). -/
structure Inv (σ : State) : Prop where
  sides : ∀ s, SideInv (σ.side s)
  off_sides : σ.mode = .off → ∀ s, SideOff (σ.side s)
  no_cause : σ.mode ≠ .fatal → σ.fcause = .none ∧ σ.fside = .s0

/-! ## Ends of a run (44_sequencer_and_system.md R169, R176) -/

/-- A blocked sequencer: none of its operations is enabled and it waits at its wait-set (R169). -/
def Blocked (σ : State) (s : Side) : Prop :=
  (σ.side s).ph = .idle ∧ (σ.side s).nv = false ∧ (σ.side s).qcnt = 0

/-- A quiescent state, the end of a run in which all work is done (R176). -/
def Quiescent (σ : State) : Prop :=
  σ.mode = .run ∧ ∀ s, (σ.side s).ph = .idle ∧ (σ.side s).nv = false ∧ (σ.side s).qcnt = 0 ∧ (σ.side s).txf = false

/-- A state no claim calls a good end: a fatal condition was raised (60_exceptions.md R186). -/
def Fatal (σ : State) : Prop := σ.mode = .fatal

/-! ## The two sides exchanged (44_sequencer_and_system.md R177) -/

/-- A port event with its side exchanged. -/
def swapEvent : PortEvent → PortEvent
  | .rxStart s n => .rxStart (peer s) n
  | .txStart s f n => .txStart (peer s) f n

/-- A state with the two sides exchanged. -/
def swapSides (σ : State) : State :=
  { σ with ctx0 := σ.ctx1, ctx1 := σ.ctx0, fside := peer σ.fside, outs := σ.outs.map swapEvent }

/-! ## Executions and fairness (44_sequencer_and_system.md R171) -/

/-- An infinite execution: operation `op n` takes state `st n` to state `st (n + 1)`. -/
def IsExecution (st : Nat → State) (op : Nat → Instr) : Prop :=
  ∀ n, exec (op n) (st n) = .next (st (n + 1))

/-- Weak fairness on a set of operations: if from some point on one of them is always enabled, one of them is taken
after that point. -/
def WeaklyFair (ops : Instr → Prop) (st : Nat → State) (op : Nat → Instr) : Prop :=
  ∀ n, (∀ m, n ≤ m → ∃ i, ops i ∧ Enabled i (st m)) → ∃ m, n ≤ m ∧ ops (op m)

/-- A fair execution: weakly fair on `NTAKE s`, `RSTEP s` and `TXISSUE s` of each side, with no promise about `TXDEFER`
or the environment (R171). -/
def Fair (st : Nat → State) (op : Nat → Instr) : Prop :=
  ∀ s, WeaklyFair (fun i => i = .ntake s) st op ∧ WeaklyFair (fun i => i = .rstep s) st op ∧
    WeaklyFair (fun i => ∃ e, i = .txissue s e) st op

/-! ## Hazards HZ1 and HZ2 (70_reset_and_hazards.md R216, R217) -/

/-- A post on a side. -/
def isPost (s : Side) (i : Instr) : Bool := i = .rxhalf s || i = .rxfull s

/-- A DMA write into a half of a side. -/
def writesHalf (s : Side) (h : Half) : Instr → Bool
  | .dmawr t a _ => t = s && halfOf a = h
  | .reset => false
  | .enable _ => false
  | .rxhalf _ => false
  | .rxfull _ => false
  | .txdone _ => false
  | .ntake _ => false
  | .rstep _ => false
  | .txissue _ _ => false
  | .txdefer _ => false

/-- A clean pass of side `s` over half `h` as the segment of a trace from the post whose value its `NTAKE s` takes to its
last `RSTEP s`: no DMA write into the half falls in it (R216). It reads the operations as presented and no state, so in a
trace with refused operations a refused one counts like any other: a refused `NTAKE s` before the taking one makes the segment
not clean, and a refused `NTAKE s` or `RSTEP s` may stand for the pass's own. R216 does not speak of refused operations
(DESIGN CHOICE, assumption log 14); on an accepted trace the question does not arise. -/
def CleanPass (s : Side) (h : Half) (seg : List Instr) : Prop :=
  ∃ mid body, seg = eventOf s h :: (mid ++ .ntake s :: body) ∧
    (∀ i ∈ mid, isPost s i = false ∧ i ≠ .ntake s) ∧
    body.count (.rstep s) = Config.H ∧ body.getLast? = some (.rstep s) ∧
    ∀ i ∈ seg, writesHalf s h i = false ∧ i ≠ .reset

/-- Between any two posts on a side there is an `NTAKE s` (R217); `waiting` says that a post has not been taken yet. An
`NTAKE s` that is presented and refused counts as one, which R217 does not say (DESIGN CHOICE, assumption log 14); on an
accepted trace the question does not arise. -/
def keepsPaceFrom (s : Side) (waiting : Bool) : List Instr → Bool
  | [] => true
  | i :: tr =>
    if isPost s i then !waiting && keepsPaceFrom s true tr
    else if i = .ntake s then keepsPaceFrom s false tr
    else keepsPaceFrom s waiting tr

/-- A trace keeps pace on a side (R217). -/
def KeepsPace (s : Side) (tr : List Instr) : Prop := keepsPaceFrom s false tr = true

/-! ## The environment contract HZ5 (70_reset_and_hazards.md R220 to R223) -/

/-- Ring writer: the `k`-th DMA write of a side after ENABLE has address `k mod N` (R220). -/
def ringFrom (s : Side) (k : Nat) : List Instr → Bool
  | [] => true
  | .dmawr t a _ :: tr => if t = s then decide (a.toNat = k % Config.N) && ringFrom s (k + 1) tr else ringFrom s k tr
  | .reset :: tr => ringFrom s 0 tr
  | _ :: tr => ringFrom s k tr

/-- The half a DMA write completes, if it completes one: `a = H - 1` or `a = N - 1` (R221). -/
def completes (a : RxAddr) : Option Half :=
  if a.toNat = Config.H - 1 then some 0 else if a.toNat = Config.N - 1 then some 1 else none

/-- Completion events, strict form: the event comes before the next DMA write of the side (R221). `due` is the half
completed and not yet announced. -/
def strictEventsFrom (s : Side) (due : Option Half) : List Instr → Bool
  | [] => true
  | .dmawr t a _ :: tr => if t = s then due.isNone && strictEventsFrom s (completes a) tr else strictEventsFrom s due tr
  | .rxhalf t :: tr => if t = s then decide (due = some 0) && strictEventsFrom s none tr else strictEventsFrom s due tr
  | .rxfull t :: tr => if t = s then decide (due = some 1) && strictEventsFrom s none tr else strictEventsFrom s due tr
  | .reset :: tr => strictEventsFrom s none tr
  | _ :: tr => strictEventsFrom s due tr

/-- Completion events, loose form: the event comes before the DMA write that completes the other half (R221). -/
def looseEventsFrom (s : Side) (due : Option Half) : List Instr → Bool
  | [] => true
  | .dmawr t a _ :: tr =>
    if t = s then
      match completes a with
      | some h => due.isNone && looseEventsFrom s (some h) tr
      | none => looseEventsFrom s due tr
    else looseEventsFrom s due tr
  | .rxhalf t :: tr => if t = s then decide (due = some 0) && looseEventsFrom s none tr else looseEventsFrom s due tr
  | .rxfull t :: tr => if t = s then decide (due = some 1) && looseEventsFrom s none tr else looseEventsFrom s due tr
  | .reset :: tr => looseEventsFrom s none tr
  | _ :: tr => looseEventsFrom s due tr

/-- The operations of the environment's agents: host, receive DMA, interrupts (00_scope.md R8). -/
def isEnvironment : Instr → Bool
  | .reset => true
  | .enable _ => true
  | .dmawr _ _ _ => true
  | .rxhalf _ => true
  | .rxfull _ => true
  | .txdone _ => true
  | .ntake _ => false
  | .rstep _ => false
  | .txissue _ _ => false
  | .txdefer _ => false

/-- No operation of the environment is refused: one that is breaks the contract (00_scope.md R13). A refused operation of a
sequencer is one that the block does not perform. -/
def environmentAccepted : List Instr → State → Bool
  | [], _ => true
  | i :: tr, σ => (!isEnvironment i || takesStep i σ) && environmentAccepted tr (present i σ)

/-- Whether a `TXDONE s` has come since the last `TXISSUE s` that took place, after one more operation. -/
def completedAfter (s : Side) (i : Instr) (σ : State) (completed : Bool) : Bool :=
  if i = .txdone s then true
  else if i = .reset then false
  else if (i = .txissue s .ok || i = .txissue s .error) && takesStep i σ then false
  else completed

/-- Transmit completion (R222): a `TXDONE s` occurs only when `TXF[s] = 1`, at most one between two consecutive `TXISSUE s`,
and it is a step, so that it ends a transfer that a `TXISSUE s, ok` started: in `FATAL` none does. `completed` says that one
has come since the last `TXISSUE s`. -/
def txContractFrom (s : Side) (completed : Bool) : List Instr → State → Bool
  | [], _ => true
  | i :: tr, σ =>
    (decide (i ≠ .txdone s) || (takesStep i σ && (σ.side s).txf && !completed)) &&
      txContractFrom s (completedAfter s i σ completed) tr (present i σ)

/-- A trace keeps the transmit completion contract of a side (R222). -/
def txContract (s : Side) (tr : List Instr) (σ : State) : Bool := txContractFrom s false tr σ

/-- Host: `ENABLE` occurs once after each `RESET` and before any other operation (R223); `started` says that it has. -/
def hostContractFrom (started : Bool) : List Instr → Bool
  | [] => true
  | .reset :: tr => hostContractFrom false tr
  | .enable _ :: tr => !started && hostContractFrom true tr
  | _ :: tr => started && hostContractFrom started tr

/-- A conforming trace from a state right after reset, with the strict form of the completion events (R220 to R223; that no
environment operation is refused, 00_scope.md R13). -/
def ConformsStrictly (tr : List Instr) (σ : State) : Prop :=
  hostContractFrom false tr = true ∧ environmentAccepted tr σ = true ∧
  ∀ s, ringFrom s 0 tr = true ∧ strictEventsFrom s none tr = true ∧ txContract s tr σ = true

/-- A conforming trace with the loose form of the completion events (R220 to R223, 00_scope.md R13). -/
def ConformsLoosely (tr : List Instr) (σ : State) : Prop :=
  hostContractFrom false tr = true ∧ environmentAccepted tr σ = true ∧
  ∀ s, ringFrom s 0 tr = true ∧ looseEventsFrom s none tr = true ∧ txContract s tr σ = true

end Machine
end Sys2Proof
end

