-- ==== Sys2Proof/Certificates/Slice0/Obligations.lean ====
section
/-! DEFINITION. The statements about the block. A docstring names the rule a statement formalises, or, where it rests on a
decision the spec marks as its own or on one of the model's, that decision and the log entry. -/

open Sys2Proof Sys2Proof.Machine

/-! ## Encoding -/

/-- Decoding the stored bytes of a well-formed operation gives the operation back, with every operand, and leaves the bytes
that follow. The encoding is the spec's own (92_eei_decisions.md D19, assumption log 13). -/
def Obligations.DecodeOfEncodeGivesTheOperation : Prop :=
  ∀ (i : Instr) (rest : List Byte), i.wf = true → decode (encodeBytes i ++ rest) = .ok (i, rest)

/-- A word that decodes is the encoding of what it decodes to, and that is well formed: no two words share a meaning and no
bit of a legal word is ignored (D19, assumption log 13). -/
def Obligations.EncodeOfDecodeGivesTheWord : Prop :=
  ∀ (w : OpWord) (i : Instr), decodeWord w = .ok i → i.wf = true ∧ encode i = w

/-- The decoder agrees with the operation map: a word decodes to an operation of a mnemonic exactly when it matches that
row under its mask and, for `ENABLE`, its result code is legal (30_encoding.md section 2, D19, assumption log 13). -/
def Obligations.DecoderAgreesWithTheOperationMap : Prop :=
  ∀ (w : OpWord) (m : String),
    (∃ i, decodeWord w = .ok i ∧ mnemonicOf i = m) ↔
      ∃ r ∈ opTable, r.mnemonic = m ∧ r.matchesWord w = true ∧
        (r.opc = 0x1 → fcLegal (w.extractLsb' 0 4) = true)

/-- The legal example words of 30_encoding.md section 4, one or more per operation, decode to the operations it lists. -/
def Obligations.ExampleWordsDecode : Prop :=
  decodeWord 0x000000 = .ok .reset ∧
  decodeWord 0x010000 = .ok (.enable 0) ∧
  decodeWord 0x01000B = .ok (.enable 0b1011) ∧
  decodeWord 0x12FF7F = .ok (.dmawr .s1 255 0x7F) ∧
  decodeWord 0x030000 = .ok (.rxhalf .s0) ∧
  decodeWord 0x140000 = .ok (.rxfull .s1) ∧
  decodeWord 0x150000 = .ok (.txdone .s1) ∧
  decodeWord 0x080000 = .ok (.ntake .s0) ∧
  decodeWord 0x190000 = .ok (.rstep .s1) ∧
  decodeWord 0x0A0000 = .ok (.txissue .s0 .ok) ∧
  decodeWord 0x1A0001 = .ok (.txissue .s1 .error) ∧
  decodeWord 0x1B0000 = .ok (.txdefer .s1)

/-- A word is illegal exactly when one of the conditions 30_encoding.md section 3 lists holds (D19, assumption log 13). -/
def Obligations.IllegalWordsAreThoseListed : Prop :=
  ∀ w : OpWord,
    (∃ why, decodeWord w = .error why) ↔
      let opc := fieldOpc w
      fieldRsv w ≠ 0 ∨
      opc ∈ [0x6#4, 0x7#4, 0xC#4, 0xD#4, 0xE#4, 0xF#4] ∨
      (opc ∈ [0x0#4, 0x1#4] ∧ fieldS w ≠ 0) ∨
      (opc ≠ 0x2 ∧ fieldA w ≠ 0) ∨
      (opc ∈ [0x0#4, 0x3#4, 0x4#4, 0x5#4, 0x8#4, 0x9#4, 0xB#4] ∧ fieldB w ≠ 0) ∨
      (opc = 0xA ∧ (fieldB w).extractLsb' 1 7 ≠ 0) ∨
      (opc = 0x1 ∧ ((fieldB w).extractLsb' 4 4 ≠ 0 ∨
        (fieldB w).extractLsb' 0 4 ∉ [0x0#4, 0x1#4, 0x2#4, 0x3#4, 0x4#4, 0x9#4, 0xA#4, 0xB#4, 0xC#4]))

/-- Reading back the line written for a well-formed operation gives that one operation (30_encoding.md section 4, the
spec's own syntax, D20; assumption log 15). -/
def Obligations.TraceLineReadsBack : Prop :=
  ∀ i : Instr, i.wf = true → parseLine (textOf i) = some [i]

/-! ## The step -/

/-- When the trace begins with the word of a well-formed operation, the step is that operation's effect in the state with
the word taken from the trace (assumption log 1). -/
def Obligations.StepRunsTheDecodedOperation : Prop :=
  ∀ (σ : State) (i : Instr) (rest : List Byte), i.wf = true → σ.trace = encodeBytes i ++ rest →
    step σ = exec i { σ with trace := rest }

/-- An illegal word is refused by its reason in every state; an ended trace and one that ends inside a word are refused
too (30_encoding.md section 3, D19; the last two are the model's, assumption log 1). -/
def Obligations.StepRefusesWhatIsNoOperation : Prop :=
  ∀ σ : State,
    (∀ (w : OpWord) (why : Illegal) (rest : List Byte), decodeWord w = .error why → σ.trace = bytesOfWord w ++ rest →
      step σ = .refused (.noOperation (.illegalWord why))) ∧
    (σ.trace = [] → step σ = .refused (.noOperation .endOfBytes)) ∧
    (σ.trace.length = 1 ∨ σ.trace.length = 2 → step σ = .refused (.noOperation .truncatedWord))

/-! ## Enabling -/

/-- Every well-formed operation is refused exactly where its row of the enabling table does not hold
(44_sequencer_and_system.md section 1; that an event out of place is refused is the spec's own decision D5). -/
def Obligations.RefusedExactlyWhenNotEnabled : Prop :=
  ∀ (i : Instr) (σ : State), i.wf = true → (Refused i σ ↔ ¬ Enabled i σ)

/-- Every well-formed operation that is enabled completes in a next state, wherever the byte counters are in the range they
have at operation boundaries. -/
def Obligations.EnabledOperationsComplete : Prop :=
  ∀ (i : Instr) (σ : State), i.wf = true → Enabled i σ → (∀ s, (σ.side s).cnt.toNat < Config.L) →
    ∃ τ, exec i σ = .next τ

/-- The one fault of the model: an operation faults exactly when it is an enabled `RSTEP s` with a byte to append and a
count of `L` or more (the model's choice, assumption log 8). -/
def Obligations.FaultExactlyOnACountOutOfRange : Prop :=
  ∀ (i : Instr) (σ : State) (f : Fault),
    exec i σ = .fault f ↔
      f = .workingBufferOverrun ∧ ∃ s, i = .rstep s ∧ Enabled (.rstep s) σ ∧ Config.L ≤ (σ.side s).cnt.toNat ∧
        (rxRead σ s (windowAddr (σ.side s).sh (σ.side s).idx) ≠ 0 ∨
          ((σ.side s).idx ≠ 0 ∧ rxRead σ s (windowAddr (σ.side s).sh ((σ.side s).idx - 1)) ≠ 0))

/-! ## Receive and notifier -/

/-- `DMAWR s, a, d` in `RUN` completes: the byte at `a` of `RXBUF[s]` reads as `d`, every other byte of either receive
buffer reads as before, and nothing else changes (40_receive_and_notifier.md section 2; an operation by the spec's own
decision D21, assumption log 13). -/
def Obligations.DmaWriteStoresOneByte : Prop :=
  ∀ (σ : State) (s : Side) (a : RxAddr) (d : Byte), σ.mode = .run →
    ∃ τ, exec (.dmawr s a d) σ = .next τ ∧
      rxRead τ s a = d ∧
      (∀ u b, u ≠ s ∨ b ≠ a → rxRead τ u b = rxRead σ u b) ∧
      (∀ u, { τ.side u with rxbuf := (σ.side u).rxbuf } = σ.side u) ∧
      τ.mode = σ.mode ∧ τ.fcause = σ.fcause ∧ τ.fside = σ.fside ∧
      τ.trace = σ.trace ∧ τ.outs = σ.outs ∧ τ.draws = σ.draws

/-- `RXHALF s` posts 0 and `RXFULL s` posts 1 whatever the slot held and whatever the phase; nothing else changes, so no
memory is touched (40_receive_and_notifier.md section 2; which event posts which value is the spec's own decision D16,
assumption log 11). -/
def Obligations.CompletionEventsPost : Prop :=
  ∀ (σ : State) (s : Side), σ.mode = .run →
    exec (.rxhalf s) σ = .next (σ.setSide s { σ.side s with nv := true, nval := 0 }) ∧
    exec (.rxfull s) σ = .next (σ.setSide s { σ.side s with nv := true, nval := 1 })

/-- R101: `NPost(s, v)` does `NV[s] <- 1; NVAL[s] <- v`, always, and an earlier value is gone: the state after two posts is
that after the second alone. -/
def Obligations.PostOverwritesTheSlot : Prop :=
  ∀ (σ : State) (s : Side) (v w : Half),
    ((nPost σ s v).side s).nv = true ∧ ((nPost σ s v).side s).nval = v ∧
    (nPost σ s v).side (peer s) = σ.side (peer s) ∧
    nPost (nPost σ s w) s v = nPost σ s v

/-- R102: `NTakeVal(s)` returns `NVAL[s]`, the latest value posted, and empties the slot. -/
def Obligations.TakeReturnsTheLatestPost : Prop :=
  ∀ (σ : State) (s : Side) (v w : Half),
    (nTakeVal σ s).1 = (σ.side s).nval ∧
    ((nTakeVal σ s).2.side s).nv = false ∧
    (nTakeVal (nPost (nPost σ s v) s w) s).1 = w

/-- `NTAKE s`, enabled, completes: the slot is emptied, a pass over the half it named starts at index 0 with count 0 and a
working buffer of zeros, and nothing else changes (40_receive_and_notifier.md section 2; that the buffer is cleared to zero
is the spec's own decision D12, assumption log 10). -/
def Obligations.NotificationTakeStartsThePass : Prop :=
  ∀ (σ : State) (s : Side), σ.mode = .run → (σ.side s).ph = .idle → (σ.side s).nv = true →
    exec (.ntake s) σ = .next (σ.setSide s { σ.side s with
      nv := false, ph := .scan, sh := (σ.side s).nval, idx := 0, cnt := 0, wb := Vector.replicate Config.L 0 })

/-- The value taken selects the window (part of R109, 40_receive_and_notifier.md section 3): after `NTAKE s` with
`NVAL[s] = v` the addresses a pass reads are `H * v + i` for `i` below `H`, all in half `v`, none in the other. -/
def Obligations.TakenValueSelectsTheWindow : Prop :=
  ∀ (σ τ : State) (s : Side), exec (.ntake s) σ = .next τ →
    (τ.side s).sh = (σ.side s).nval ∧
    ∀ i : BitVec 7, (windowAddr (τ.side s).sh i).toNat = Config.H * ((σ.side s).nval).toNat + i.toNat ∧
      halfOf (windowAddr (τ.side s).sh i) = (σ.side s).nval

/-! ## The reassembler -/

/-- R122 and R123: with `b` the byte at the index and `p` the byte before it, both read from `RXBUF[s]` at this step, the
byte is appended at `WB[s][CNT[s]]` exactly when it is not zero, or the index is not 0 and `p` is not zero; else the working
buffer is as it was. -/
def Obligations.ScanAppendsByTheTerminatorRule : Prop :=
  ∀ (σ : State) (s : Side), σ.mode = .run → (σ.side s).ph = .scan → (σ.side s).cnt.toNat < Config.L →
    ∃ τ, exec (.rstep s) σ = .next τ ∧
      let c := σ.side s
      let b := rxRead σ s (windowAddr c.sh c.idx)
      let appends : Prop := b ≠ 0 ∨ (0 < c.idx.toNat ∧ rxRead σ s (windowAddr c.sh (c.idx - 1)) ≠ 0)
      (appends → (τ.side s).wb.toList = c.wb.toList.set c.cnt.toNat b ∧
        (τ.side s).cnt.toNat = (c.cnt.toNat + 1) % Config.L) ∧
      (¬ appends → (τ.side s).wb = c.wb ∧ τ.side s = { c with ph := (τ.side s).ph, idx := (τ.side s).idx })

/-- R124: with `c` the count after the append, the flush is made exactly when `c = L`, or the byte is the window's last and
`c > 0`; it puts all `L` bytes of the working buffer, as just updated, in the tail slot of the peer's queue if that has a
free slot, and otherwise writes nothing there and raises no error. The flush itself does not change the working buffer. -/
def Obligations.ScanFlushesFullOrLast : Prop :=
  ∀ (σ : State) (s : Side), σ.mode = .run → (σ.side s).ph = .scan → (σ.side s).cnt.toNat < Config.L →
    ∃ τ, exec (.rstep s) σ = .next τ ∧
      let own := σ.side s
      let q := σ.side (peer s)
      let b := rxRead σ s (windowAddr own.sh own.idx)
      let appends : Prop := b ≠ 0 ∨ (0 < own.idx.toNat ∧ rxRead σ s (windowAddr own.sh (own.idx - 1)) ≠ 0)
      (appends → (τ.side s).wb.toList = own.wb.toList.set own.cnt.toNat b) ∧ (¬ appends → (τ.side s).wb = own.wb) ∧
      τ.mode = .run ∧ τ.fcause = σ.fcause ∧ τ.fside = σ.fside ∧
      ∀ c : Nat, (appends ∧ c = own.cnt.toNat + 1) ∨ (¬ appends ∧ c = own.cnt.toNat) →
        let flush : Prop := c = Config.L ∨ (own.idx.toNat = Config.H - 1 ∧ 0 < c)
        (flush ∧ 1 ≤ qFree σ (peer s) → τ.side (peer s) = { q with
            qmem := q.qmem.set q.qtail.toNat (τ.side s).wb q.qtail.isLt, qtail := q.qtail + 1, qcnt := q.qcnt + 1 }) ∧
        (¬ (flush ∧ 1 ≤ qFree σ (peer s)) → τ.side (peer s) = q)

/-- R125: after a flush that reached `L` the count is 0, whether the frame was pushed or dropped; after any other step it is
the count after the append. -/
def Obligations.ScanResetsTheCountAtL : Prop :=
  ∀ (σ : State) (s : Side), σ.mode = .run → (σ.side s).ph = .scan → (σ.side s).cnt.toNat < Config.L →
    ∃ τ, exec (.rstep s) σ = .next τ ∧
      let own := σ.side s
      let b := rxRead σ s (windowAddr own.sh own.idx)
      let appends : Prop := b ≠ 0 ∨ (0 < own.idx.toNat ∧ rxRead σ s (windowAddr own.sh (own.idx - 1)) ≠ 0)
      ∀ c : Nat, (appends ∧ c = own.cnt.toNat + 1) ∨ (¬ appends ∧ c = own.cnt.toNat) →
        (c = Config.L → (τ.side s).cnt = 0) ∧ (c ≠ Config.L → (τ.side s).cnt.toNat = c)

/-- Advance: below the last index the pass goes on with the next index; at the last it ends, the index as it was
(41_reassembler.md section 1; the granularity of a pass is the spec's own decision D11, assumption log 13). -/
def Obligations.ScanAdvancesOrEnds : Prop :=
  ∀ (σ : State) (s : Side), σ.mode = .run → (σ.side s).ph = .scan → (σ.side s).cnt.toNat < Config.L →
    ∃ τ, exec (.rstep s) σ = .next τ ∧
      ((σ.side s).idx.toNat < Config.H - 1 →
        (τ.side s).ph = .scan ∧ (τ.side s).idx.toNat = (σ.side s).idx.toNat + 1) ∧
      ((σ.side s).idx.toNat = Config.H - 1 → (τ.side s).ph = .idle ∧ (τ.side s).idx = (σ.side s).idx)

/-- The frame of `RSTEP s`: on its own side all but `WB`, `CNT`, `IDX`, `PH` is as before, the peer's side all but `QMEM`,
`QTAIL`, `QCNT`; of the working buffer all but the byte at `CNT[s]`, of the peer's slots all but the one at `QTAIL`; every
byte of either receive buffer reads as before; the global state and the ports are untouched. -/
def Obligations.ScanLeavesTheRest : Prop :=
  ∀ (σ τ : State) (s : Side), exec (.rstep s) σ = .next τ →
    τ.side s = { σ.side s with
      wb := (τ.side s).wb, cnt := (τ.side s).cnt, idx := (τ.side s).idx, ph := (τ.side s).ph } ∧
    τ.side (peer s) = { σ.side (peer s) with
      qmem := (τ.side (peer s)).qmem, qtail := (τ.side (peer s)).qtail, qcnt := (τ.side (peer s)).qcnt } ∧
    (∀ k : Fin Config.L, k.val ≠ (σ.side s).cnt.toNat → (τ.side s).wb[k] = (σ.side s).wb[k]) ∧
    (∀ j : Fin Config.M, j.val ≠ (σ.side (peer s)).qtail.toNat →
      (τ.side (peer s)).qmem[j] = (σ.side (peer s)).qmem[j]) ∧
    (∀ u a, rxRead τ u a = rxRead σ u a) ∧
    τ.mode = σ.mode ∧ τ.fcause = σ.fcause ∧ τ.fside = σ.fside ∧
    τ.trace = σ.trace ∧ τ.outs = σ.outs ∧ τ.draws = σ.draws

/-! ## The transfer queue -/

/-- R142 and R143: `QFree(t) = M - QCNT[t]`, and `QPush(t, f)` with a free slot writes the whole slot `QTAIL[t]`, steps the
tail mod `M` and adds 1 to the count; every other slot and everything else is as before. Where pointers and count agree the
sequence gains the frame at its end. -/
def Obligations.PushWritesTheTailSlot : Prop :=
  ∀ (σ : State) (t : Side) (f : Frame),
    qFree σ t = Config.M - (σ.side t).qcnt.toNat ∧
    (1 ≤ qFree σ t →
      let c := σ.side t
      let d := (qPush σ t f).side t
      d = { c with qmem := d.qmem, qtail := d.qtail, qcnt := d.qcnt } ∧
      (∀ j : Fin Config.M, d.qmem[j] = if j.val = c.qtail.toNat then f else c.qmem[j]) ∧
      d.qtail.toNat = (c.qtail.toNat + 1) % Config.M ∧ d.qcnt.toNat = c.qcnt.toNat + 1 ∧
      qPush σ t f = σ.setSide t d ∧
      (SideInv c → qseq d = qseq c ++ [f]))

/-- R144: `QPop(s)` with a frame held returns the bytes of the slot `QHEAD[s]`, steps the head mod `M` and takes 1 from the
count; the slots and everything else are as before. The frame returned is the head of the sequence, its tail is left. -/
def Obligations.PopTakesTheHeadSlot : Prop :=
  ∀ (σ : State) (s : Side), 1 ≤ (σ.side s).qcnt.toNat →
    let c := σ.side s
    let d := (qPop σ s).2.side s
    (∀ k : Fin Config.L, (qPop σ s).1[k] = (c.qmem[c.qhead.toNat]'c.qhead.isLt)[k]) ∧
    d = { c with qhead := d.qhead, qcnt := d.qcnt } ∧
    d.qhead.toNat = (c.qhead.toNat + 1) % Config.M ∧ d.qcnt.toNat = c.qcnt.toNat - 1 ∧
    (qPop σ s).2 = σ.setSide s d ∧ qseq c = (qPop σ s).1 :: qseq d

/-- The ring refines a first-in first-out sequence, over every operation: from a state of the invariant the sequence of a
side is emptied by `RESET` and a successful `ENABLE`, loses its head (which is what the transmit buffer and the port get) by
`TXISSUE`, gains at its end at most the peer's working buffer by the peer's `RSTEP`, and is otherwise as it was
(42_transfer_queue.md sections 2 and 3). -/
def Obligations.QueueRefinesFifo : Prop :=
  ∀ (σ τ : State) (i : Instr) (u : Side), Inv σ → exec i σ = .next τ →
    (i = .reset ∨ i = .enable 0 → qseq (τ.side u) = []) ∧
    (∀ e, i = .txissue u e → ∃ f, qseq (σ.side u) = f :: qseq (τ.side u) ∧ (τ.side u).txbuf = f ∧
      τ.outs = σ.outs ++ [.txStart u f Config.L]) ∧
    (i = .rstep (peer u) → qseq (τ.side u) = qseq (σ.side u) ∨
      ((qseq (σ.side u)).length < Config.M ∧ qseq (τ.side u) = qseq (σ.side u) ++ [(τ.side (peer u)).wb])) ∧
    (i ≠ .reset → i ≠ .enable 0 → (∀ e, i ≠ .txissue u e) → i ≠ .rstep (peer u) →
      qseq (τ.side u) = qseq (σ.side u))

/-- R146: with the destination full, a step of the reassembler completes and leaves the destination side exactly as it was;
and no step of the reassembler overwrites, displaces or removes a frame already queued. -/
def Obligations.FullQueueDropsTheNewest : Prop :=
  ∀ (σ : State) (s : Side), σ.mode = .run → (σ.side s).ph = .scan → (σ.side s).cnt.toNat < Config.L →
    SideInv (σ.side (peer s)) →
    ∃ τ, exec (.rstep s) σ = .next τ ∧
      (qFree σ (peer s) = 0 → τ.side (peer s) = σ.side (peer s)) ∧
      qseq (σ.side (peer s)) <+: qseq (τ.side (peer s))

/-- R136: only the reassembler of the other side adds a frame to a queue: after any other operation a queue holds the end
part of what it held, and `RSTEP s` leaves the queue of its own side as it was. -/
def Obligations.OnlyThePeersReassemblerProduces : Prop :=
  ∀ (σ τ : State) (i : Instr) (u : Side), exec i σ = .next τ →
    (i ≠ .rstep (peer u) → qseq (τ.side u) <:+ qseq (σ.side u)) ∧
    (i = .rstep u → qseq (τ.side u) = qseq (σ.side u))

/-! ## Transmit flow -/

/-- `TXISSUE s, ok`, enabled, completes: one frame leaves the head slot for the transmit buffer and the transmit port, the
flag is set, nothing else changes (43_transmit_flow.md section 2; the transmit buffer is the spec's own decision D10,
assumption log 13). -/
def Obligations.TransmitIssueStartsTheOldestFrame : Prop :=
  ∀ (σ : State) (s : Side), σ.mode = .run → (σ.side s).ph = .idle → 1 ≤ (σ.side s).qcnt.toNat →
    (σ.side s).txf = false →
    let c := σ.side s
    let f := c.qmem[c.qhead.toNat]'c.qhead.isLt
    exec (.txissue s .ok) σ = .next
      { σ.setSide s { c with qhead := c.qhead + 1, qcnt := c.qcnt - 1, txf := true, txbuf := f } with
        outs := σ.outs ++ [.txStart s f Config.L] }

/-- `TXISSUE s, err`, enabled, takes the fatal condition of cause 5 on side `s` after the pop, the flag, the buffer and the
output (43_transmit_flow.md section 2; that the error is fatal is the spec's own decision D24, assumption log 13). -/
def Obligations.TransmitErrorIsFatalAfterThePop : Prop :=
  ∀ (σ : State) (s : Side), σ.mode = .run → (σ.side s).ph = .idle → 1 ≤ (σ.side s).qcnt.toNat →
    (σ.side s).txf = false →
    ∃ τ, exec (.txissue s .ok) σ = .next τ ∧
      exec (.txissue s .error) σ = .next { τ with mode := .fatal, fcause := .txst, fside := s }

/-- R152: `TXDEFER s`, enabled, completes with no state change and no output, any number of times; where its enabling
condition does not hold it is refused. Its word is `0x0B0000`, with bit 20 the side. -/
def Obligations.DeferChangesNothing : Prop :=
  ∀ (σ : State) (s : Side),
    (σ.mode = .run ∧ (σ.side s).ph = .idle ∧ 1 ≤ (σ.side s).qcnt.toNat ∧ (σ.side s).txf = true →
      ∀ n : Nat, accept (List.replicate n (.txdefer s)) σ = some σ ∧ exec (.txdefer s) σ = .next σ) ∧
    (¬ (σ.mode = .run ∧ (σ.side s).ph = .idle ∧ 1 ≤ (σ.side s).qcnt.toNat ∧ (σ.side s).txf = true) →
      Refused (.txdefer s) σ) ∧
    encode (.txdefer s) = (0x0B0000 : OpWord) ||| ((bitOfSide s).setWidth 24 <<< 20)

/-- R153: `TXDONE s` completes in `RUN` and clears the flag of its side, changing nothing else and nothing at all where the
flag was clear; outside `RUN` it is refused. Its word is `0x050000`, with bit 20 the side. -/
def Obligations.TransmitDoneClearsTheFlag : Prop :=
  ∀ (σ : State) (s : Side),
    (σ.mode = .run → exec (.txdone s) σ = .next (σ.setSide s { σ.side s with txf := false })) ∧
    (σ.mode = .run → (σ.side s).txf = false → exec (.txdone s) σ = .next σ) ∧
    (σ.mode ≠ .run → Refused (.txdone s) σ) ∧
    encode (.txdone s) = (0x050000 : OpWord) ||| ((bitOfSide s).setWidth 24 <<< 20)

/-- At most one outstanding transmission: while the flag of a side is set its `TXISSUE` is refused, and no operation but
`TXDONE` of that side, `RESET` and `ENABLE` clears the flag (43_transmit_flow.md section 3). -/
def Obligations.OneTransmissionOutstanding : Prop :=
  ∀ (σ : State) (s : Side), (σ.side s).txf = true →
    (∀ e, Refused (.txissue s e) σ) ∧
    ∀ (i : Instr) (τ : State), exec i σ = .next τ → i ≠ .txdone s → i ≠ .reset → (∀ fc, i ≠ .enable fc) →
      (τ.side s).txf = true

/-- The transmit buffer of a side does not change while its flag is set, under every operation but `RESET`, which leaves it
unspecified (43_transmit_flow.md section 3). -/
def Obligations.TransmitBufferStableWhileOutstanding : Prop :=
  ∀ (σ τ : State) (s : Side) (i : Instr), (σ.side s).txf = true → exec i σ = .next τ → i ≠ .reset →
    txPort τ s = txPort σ s

/-! ## Enable, reset, fatal -/

/-- `ENABLE ok` in `OFF` completes: on both sides slot, queue and flag cleared and the phase `IDLE`, memories untouched,
reception started on both, `MODE = RUN` (44_sequencer_and_system.md section 2, the spec's own decision D26; the order of
the two outputs is the model's, assumption log 9). -/
def Obligations.EnableStartsBothSides : Prop :=
  ∀ σ : State, σ.mode = .off →
    ∃ τ, exec (.enable 0) σ = .next τ ∧
      τ.mode = .run ∧ τ.fcause = σ.fcause ∧ τ.fside = σ.fside ∧
      (∀ s, τ.side s = { σ.side s with
        nv := false, qcnt := 0, qhead := 0, qtail := 0, txf := false, ph := .idle }) ∧
      τ.outs = σ.outs ++ [.rxStart .s0 256, .rxStart .s1 256] ∧ τ.trace = σ.trace ∧ τ.draws = σ.draws

/-- A failed `ENABLE` in `OFF` takes the fatal condition its result code names, and changes nothing but `MODE`, `FCAUSE`,
`FSIDE` (44_sequencer_and_system.md section 2, the spec's own decisions D7 and D26, assumption log 13). -/
def Obligations.FailedEnableIsFatal : Prop :=
  ∀ (σ : State) (t : Side), σ.mode = .off →
    exec (.enable (bitOfSide t ++ 1#3)) σ = .next { σ with mode := .fatal, fcause := .chan, fside := t } ∧
    exec (.enable (bitOfSide t ++ 2#3)) σ = .next { σ with mode := .fatal, fcause := .task, fside := t } ∧
    exec (.enable (bitOfSide t ++ 3#3)) σ = .next { σ with mode := .fatal, fcause := .wset, fside := t } ∧
    exec (.enable (bitOfSide t ++ 4#3)) σ = .next { σ with mode := .fatal, fcause := .rxst, fside := t }

/-- `RESET` completes in every state: `MODE = OFF`, no cause, and on both sides slot and queue empty, flag clear, phase
`IDLE`; the elements the spec leaves unspecified take a drawn value, of which only the byte counter's range is said
(44_sequencer_and_system.md section 2, the spec's own decision D15; assumption log 3 and 5). -/
def Obligations.ResetLeavesTheSpecifiedValues : Prop :=
  ∀ σ : State, ∃ τ, exec .reset σ = .next τ ∧
    τ.mode = .off ∧ τ.fcause = .none ∧ τ.fside = .s0 ∧
    (∀ s, (τ.side s).nv = false ∧ (τ.side s).qcnt = 0 ∧ (τ.side s).qhead = 0 ∧ (τ.side s).qtail = 0 ∧
      (τ.side s).txf = false ∧ (τ.side s).ph = .idle ∧ (τ.side s).cnt.toNat ≤ Config.L - 1) ∧
    τ.trace = σ.trace ∧ τ.outs = σ.outs

/-- The fatal condition is sticky: in `FATAL` every operation but `RESET` is refused (60_exceptions.md section 1, the spec's
own decision D6, assumption log 6). -/
def Obligations.FatalRefusesAllButReset : Prop :=
  ∀ (σ : State) (i : Instr), σ.mode = .fatal → i.wf = true → i ≠ .reset → Refused i σ

/-- Before a successful `ENABLE` every operation but `RESET` and `ENABLE` is refused (70_reset_and_hazards.md section 1, the
spec's own decision D5). -/
def Obligations.OffRefusesAllButEnableAndReset : Prop :=
  ∀ (σ : State) (i : Instr), σ.mode = .off → i ≠ .reset → (∀ fc, i ≠ .enable fc) → Refused i σ

/-- Only a failed `ENABLE` and a `TXISSUE` answered `error` raise a fatal condition, each with its cause and side
(60_exceptions.md section 1, the spec's own codes D7). -/
def Obligations.FatalOnlyFromEnableAndTransmitStart : Prop :=
  ∀ (σ τ : State) (i : Instr), exec i σ = .next τ → τ.mode = .fatal →
    (∃ fc, i = .enable fc ∧ fc ≠ 0 ∧ fcLegal fc = true ∧
      τ.fcause.code = fc.extractLsb' 0 3 ∧ sideCode τ.fside = fc.extractLsb' 3 1) ∨
    (∃ s, i = .txissue s .error ∧ τ.fcause = .txst ∧ τ.fside = s)

/-- How `MODE` moves: `RESET` goes to `OFF` from everywhere, `ENABLE` from `OFF` to `RUN` or `FATAL`, a `TXISSUE` may go
from `RUN` to `FATAL`, and every other operation stays in `RUN` (10_state.md section 2, the spec's own decision D6). -/
def Obligations.ModeMovesOnlyAsDrawn : Prop :=
  ∀ (σ τ : State) (i : Instr), exec i σ = .next τ →
    (i = .reset ∧ τ.mode = .off) ∨
    (∃ fc, i = .enable fc ∧ σ.mode = .off ∧ (τ.mode = .run ∨ τ.mode = .fatal)) ∨
    (∃ s e, i = .txissue s e ∧ σ.mode = .run ∧ (τ.mode = .run ∨ τ.mode = .fatal)) ∨
    (σ.mode = .run ∧ τ.mode = .run)

/-! ## Frames over all operations -/

/-- A byte of a receive buffer reads as before under every operation but a DMA write to that address of that side and
`RESET` (20_memory.md sections 1 and 2). -/
def Obligations.OnlyDmaWritesTheReceiveBuffer : Prop :=
  ∀ (σ τ : State) (i : Instr) (u : Side) (a : RxAddr), exec i σ = .next τ → i ≠ .reset → (∀ d, i ≠ .dmawr u a d) →
    rxRead τ u a = rxRead σ u a

/-- Which operations may write which register or frame store of a side, and the port log: under any operation that is not
among the named ones each of the thirteen elements named is as before. The receive buffer has its own statement,
`OnlyDmaWritesTheReceiveBuffer` (10_state.md section 1, 60_exceptions.md section 3). -/
def Obligations.ElementsChangeOnlyByTheirWriters : Prop :=
  ∀ (σ τ : State) (i : Instr) (u : Side), exec i σ = .next τ → i ≠ .reset →
    ((τ.side u).nv ≠ (σ.side u).nv → i = .rxhalf u ∨ i = .rxfull u ∨ i = .ntake u ∨ i = .enable 0) ∧
    ((τ.side u).nval ≠ (σ.side u).nval → i = .rxhalf u ∨ i = .rxfull u) ∧
    ((τ.side u).qmem ≠ (σ.side u).qmem → i = .rstep (peer u)) ∧
    ((τ.side u).qtail ≠ (σ.side u).qtail → i = .rstep (peer u) ∨ i = .enable 0) ∧
    ((τ.side u).qhead ≠ (σ.side u).qhead → (∃ e, i = .txissue u e) ∨ i = .enable 0) ∧
    ((τ.side u).qcnt ≠ (σ.side u).qcnt → i = .rstep (peer u) ∨ (∃ e, i = .txissue u e) ∨ i = .enable 0) ∧
    ((τ.side u).txf ≠ (σ.side u).txf → (∃ e, i = .txissue u e) ∨ i = .txdone u ∨ i = .enable 0) ∧
    ((τ.side u).txbuf ≠ (σ.side u).txbuf → ∃ e, i = .txissue u e) ∧
    ((τ.side u).ph ≠ (σ.side u).ph → i = .ntake u ∨ i = .rstep u ∨ i = .enable 0) ∧
    ((τ.side u).sh ≠ (σ.side u).sh → i = .ntake u) ∧
    ((τ.side u).idx ≠ (σ.side u).idx → i = .ntake u ∨ i = .rstep u) ∧
    ((τ.side u).cnt ≠ (σ.side u).cnt → i = .ntake u ∨ i = .rstep u) ∧
    ((τ.side u).wb ≠ (σ.side u).wb → i = .ntake u ∨ i = .rstep u) ∧
    (τ.outs ≠ σ.outs → i = .enable 0 ∨ ∃ s e, i = .txissue s e)

/-! ## Invariants -/

/-- The state after reset meets the invariant (10_state.md section 7). That `CNT` is below `L` there rests on the value 0 the
model chose where the spec leaves it unspecified (assumption log 2), and the canonical form of the receive buffers' lists is
the model's own (assumption log 4). -/
def Obligations.ResetMeetsTheInvariant : Prop := Inv State.reset

/-- Every step keeps the invariant: pointers and count of each queue agree, counters in range, nothing held before
initialisation, no cause recorded outside `FATAL` (10_state.md section 7); and the receive buffers' lists stay canonical, which
is the model's own clause (assumption log 4). That `CNT` is below `L` after the operation RESET is deduced (assumption
log 5). -/
def Obligations.EveryStepKeepsTheInvariant : Prop :=
  ∀ σ τ : State, Inv σ → step σ = .next τ → Inv τ

/-- From a state of the invariant no step ends in the model's one fault, `workingBufferOverrun` (the model's own, assumption
log 8), since the counters are in range there (10_state.md section 7). The fault of the spec's words, a fatal condition, is a
next state here with `MODE = FATAL` (assumption log 6), and this statement does not speak of it. -/
def Obligations.InvariantExcludesFaults : Prop :=
  ∀ (σ : State) (f : Fault), Inv σ → step σ ≠ .fault f

/-! ## Whole-machine rules -/

/-- During a pass its sequencer does nothing else, and nothing but its own `RSTEP` or a `RESET` changes the pass's registers
`PH`, `SH`, `IDX`, `CNT`, `WB` (40_receive_and_notifier.md section 3, 41_reassembler.md section 1, the spec's own decision
D11). It says nothing of `MODE`: a `TXISSUE` of the peer answered `error` makes it `FATAL`, which stops the pass where it
stands (60_exceptions.md section 2). -/
def Obligations.NothingCutsAPassShort : Prop :=
  ∀ (σ : State) (s : Side), σ.mode = .run → (σ.side s).ph = .scan →
    Refused (.ntake s) σ ∧ (∀ e, Refused (.txissue s e) σ) ∧ Refused (.txdefer s) σ ∧
    ∀ (i : Instr) (τ : State), exec i σ = .next τ → i ≠ .rstep s → i ≠ .reset →
      (τ.side s).ph = .scan ∧ (τ.side s).sh = (σ.side s).sh ∧ (τ.side s).idx = (σ.side s).idx ∧
      (τ.side s).cnt = (σ.side s).cnt ∧ (τ.side s).wb = (σ.side s).wb

/-- A pending notification stays pending until its sequencer takes it or the block is reset; only a later post on the same
side replaces its value (40_receive_and_notifier.md section 3). -/
def Obligations.PendingNotificationIsKept : Prop :=
  ∀ (σ τ : State) (s : Side) (i : Instr), σ.mode = .run → (σ.side s).nv = true → exec i σ = .next τ →
    i ≠ .ntake s → i ≠ .reset →
    (τ.side s).nv = true ∧ (i ≠ .rxhalf s → i ≠ .rxfull s → (τ.side s).nval = (σ.side s).nval)

/-- The order of service is open: with a notification and a frame both waiting at an idle sequencer, the pass and the
transmission (or its deferral) may each come first, and the one that did not is still waiting
(44_sequencer_and_system.md section 3). -/
def Obligations.EitherWakeSourceMayGoFirst : Prop :=
  ∀ (σ : State) (s : Side) (e : Answer), σ.mode = .run → (σ.side s).ph = .idle → (σ.side s).nv = true →
    1 ≤ (σ.side s).qcnt.toNat →
    (∃ τ, exec (.ntake s) σ = .next τ ∧ (τ.side s).qcnt = (σ.side s).qcnt) ∧
    ((σ.side s).txf = false → ∃ τ, exec (.txissue s e) σ = .next τ ∧ (τ.side s).nv = true) ∧
    ((σ.side s).txf = true → ∃ τ, exec (.txdefer s) σ = .next τ ∧ (τ.side s).nv = true)

/-- What a pass does is independent of the events of 41_reassembler.md section 4: a step of a pass commutes with the
interrupts of either side, with a DMA write of either side outside the window, and with the peer's own `NTAKE`, `RSTEP` and
`TXDEFER`. -/
def Obligations.ScanCommutesWithIndependentEvents : Prop :=
  ∀ (σ σ₁ σ₂ : State) (s : Side) (i : Instr),
    ((∃ u, i = .rxhalf u ∨ i = .rxfull u ∨ i = .txdone u) ∨
      i = .ntake (peer s) ∨ i = .rstep (peer s) ∨ i = .txdefer (peer s) ∨
      (∃ u a d, i = .dmawr u a d ∧ (u = s → halfOf a ≠ (σ.side s).sh))) →
    exec i σ = .next σ₁ → exec (.rstep s) σ = .next σ₂ →
    ∃ τ, exec (.rstep s) σ₁ = .next τ ∧ exec i σ₂ = .next τ

/-- The two sides are symmetric: each per-side operation on one side does what it does on the other with the sides
exchanged. The bytes a pass reads must have been written, since an unwritten byte's drawn value is each side's own
(44_sequencer_and_system.md section 3). -/
def Obligations.TheSidesAreSymmetric : Prop :=
  ∀ (σ τ : State) (s : Side) (a : RxAddr) (d : Byte) (e : Answer),
    (exec (.dmawr s a d) σ = .next τ → exec (.dmawr (peer s) a d) (swapSides σ) = .next (swapSides τ)) ∧
    (exec (.rxhalf s) σ = .next τ → exec (.rxhalf (peer s)) (swapSides σ) = .next (swapSides τ)) ∧
    (exec (.rxfull s) σ = .next τ → exec (.rxfull (peer s)) (swapSides σ) = .next (swapSides τ)) ∧
    (exec (.txdone s) σ = .next τ → exec (.txdone (peer s)) (swapSides σ) = .next (swapSides τ)) ∧
    (exec (.ntake s) σ = .next τ → exec (.ntake (peer s)) (swapSides σ) = .next (swapSides τ)) ∧
    ((∀ b : RxAddr, (memRead? (σ.side s).rxbuf b.toNat).isSome) →
      exec (.rstep s) σ = .next τ → exec (.rstep (peer s)) (swapSides σ) = .next (swapSides τ)) ∧
    (exec (.txissue s e) σ = .next τ → exec (.txissue (peer s) e) (swapSides σ) = .next (swapSides τ)) ∧
    (exec (.txdefer s) σ = .next τ → exec (.txdefer (peer s)) (swapSides σ) = .next (swapSides τ))

/-! ## A whole pass -/

/-- One whole pass with nothing interleaved: it is accepted from an idle sequencer with a notification, ends `IDLE`, and
adds to the destination queue as many of the window's frames, oldest first, as it has free slots; the rest are dropped
(41_reassembler.md section 4). The frames' bytes beyond their counts are those of the spec's own decisions D12, zero fill
(assumption log 10), and D22, stale tail (assumption log 13). -/
def Obligations.WholePassPushesTheWindowsFrames : Prop :=
  ∀ (σ : State) (s : Side), σ.mode = .run → (σ.side s).ph = .idle → (σ.side s).nv = true →
    SideInv (σ.side (peer s)) →
    ∃ τ, accept (scanOps s) σ = some τ ∧ (τ.side s).ph = .idle ∧ τ.mode = .run ∧
      qseq (τ.side (peer s)) = qseq (σ.side (peer s)) ++
        (frames (window σ s (σ.side s).nval)).take (Config.M - (qseq (σ.side (peer s))).length)

/-- A clean pass delivers the half as it stood at the post, whatever is interleaved but a transmission of the peer: if the
sequencer is idle at the post, no DMA write falls into the half between the post and the pass's last step, and the peer does
no `TXISSUE` meanwhile, the destination queue gains the frames of that half's content at the post, as far as it has room
(70_reset_and_hazards.md section 2, 41_reassembler.md section 4). A post that falls into an earlier pass of the side is left
out. It rests on the spec's own decisions D12 (assumption log 10), D16 (log 11) and D22 (log 13), and a clean pass is read as
a segment of a trace as log 14 says. -/
def Obligations.CleanPassDeliversTheHalfAsPosted : Prop :=
  ∀ (σ τ : State) (s : Side) (h : Half) (seg : List Instr),
    (σ.side s).ph = .idle → SideInv (σ.side (peer s)) → CleanPass s h seg →
    (∀ e, Instr.txissue (peer s) e ∉ seg) → accept seg σ = some τ →
    qseq (τ.side (peer s)) = qseq (σ.side (peer s)) ++
      (frames (window σ s h)).take (Config.M - (qseq (σ.side (peer s))).length)

/-- The logical parts of a window's frames, joined, are exactly the bytes the append test keeps, in the window's order: a
nonzero byte, and a zero byte right after a nonzero one (41_reassembler.md section 4). -/
def Obligations.FramesHoldExactlyTheKeptBytes : Prop :=
  ∀ win : List Byte, win.length = Config.H →
    ((flushes win).map logicalPart).flatten =
      ((win.zip (0 :: win)).filter (fun x => decide (x.1 ≠ 0) || decide (x.2 ≠ 0))).map Prod.fst

/-- All nonzero bytes of a window appear in its frames in original order, none lost and none added
(41_reassembler.md section 4). -/
def Obligations.FramesKeepNonzeroBytesInOrder : Prop :=
  ∀ win : List Byte, win.length = Config.H →
    ((flushes win).map logicalPart).flatten.filter (fun b => decide (b ≠ 0)) = win.filter (fun b => decide (b ≠ 0))

/-- A window makes at most `H / L = 8` frames, and none exactly when all its bytes are zero (41_reassembler.md section 4). -/
def Obligations.FramesAreAtMostEight : Prop :=
  ∀ win : List Byte, win.length = Config.H →
    (frames win).length ≤ Config.H / Config.L ∧ (frames win = [] ↔ ∀ b ∈ win, b = 0)

/-- Every flush but the last of a window reached `L`; the last holds at least one byte and at most `L`
(41_reassembler.md sections 1 and 3). -/
def Obligations.OnlyTheLastFlushIsShort : Prop :=
  ∀ win : List Byte, win.length = Config.H →
    (∀ fl ∈ (flushes win).dropLast, fl.2 = Config.L) ∧ ∀ fl ∈ flushes win, 1 ≤ fl.2 ∧ fl.2 ≤ Config.L

/-- The stale tail: beyond its count the first frame of a window is zero, and a later frame holds the bytes of the frame
before it (41_reassembler.md section 3; preserved by the spec's own decision D22, and zero by D12, assumption log 10 and 13). -/
def Obligations.ShortFramesCarryTheStaleTail : Prop :=
  ∀ win : List Byte, win.length = Config.H →
    (∀ fl ∈ (flushes win).head?, ∀ k : Fin Config.L, fl.2 ≤ k.val → fl.1[k] = 0) ∧
    ∀ (n : Nat) (fl fl' : Frame × Nat), (flushes win)[n]? = some fl → (flushes win)[n + 1]? = some fl' →
      ∀ k : Fin Config.L, fl'.2 ≤ k.val → fl'.1[k] = fl.1[k]

/-! ## Pace and progress -/

/-- A trace that keeps pace on a side loses no notification: at every post the slot is empty
(70_reset_and_hazards.md section 2, 40_receive_and_notifier.md section 3). -/
def Obligations.KeepingPaceLosesNoNotification : Prop :=
  ∀ (σ τ : State) (s : Side) (before after : List Instr) (i : Instr),
    (σ.side s).nv = false → KeepsPace s (before ++ i :: after) → accept before σ = some τ → isPost s i = true →
    (τ.side s).nv = false

/-- In a fair execution that stays in `RUN`, every notification is served: a side whose slot is occupied does an `NTAKE`
(44_sequencer_and_system.md section 3; weak fairness and the level-sensitive wake are the spec's own decisions D27 and D23,
assumption log 12 and 13). -/
def Obligations.EveryNotificationIsServed : Prop :=
  ∀ (st : Nat → State) (op : Nat → Instr) (s : Side) (n : Nat),
    IsExecution st op → Fair st op → (∀ m, (st m).mode = .run) → ((st n).side s).nv = true →
    ∃ m, n ≤ m ∧ op m = .ntake s

/-- A trace that keeps the transmit completion contract of a side: every `TXDONE s` comes in `RUN` with the flag set, and
between two of them a `TXISSUE s, ok` has taken place (70_reset_and_hazards.md section 3, the spec's own decision D25; how a
refused `TXISSUE` and a `RESET` count is the model's reading, assumption log 14). -/
def Obligations.TransmitContractGivesOneCompletionPerIssue : Prop :=
  ∀ (σ : State) (s : Side) (before after : List Instr), txContract s (before ++ .txdone s :: after) σ = true →
    (presentAll before σ).mode = .run ∧ ((presentAll before σ).side s).txf = true ∧
    ∀ mid rest, after = mid ++ .txdone s :: rest →
      ∃ pre post, mid = pre ++ .txissue s .ok :: post ∧
        ∃ τ, exec (.txissue s .ok) (presentAll (before ++ .txdone s :: pre) σ) = .next τ
end

