-- ==== Sys2Proof/Laws/Encoding.lean ====
section
/-! SUPPORT. The laws of words and their fields: a word is made of its five fields, the fields of an encoded operation are
the ones it was made of, and three stored bytes make the word they came from. -/

namespace Sys2Proof

/-- The word with the given fields, most significant first. -/
abbrev joinFields (x : BitVec 3) (s : BitVec 1) (o : BitVec 4) (a b : BitVec 8) : OpWord := x ++ s ++ o ++ a ++ b

section

variable (x : BitVec 3) (s : BitVec 1) (o : BitVec 4) (a b : BitVec 8)

@[simp] theorem fieldRsv_join : fieldRsv (joinFields x s o a b) = x := by
  unfold fieldRsv joinFields
  ext i hi
  simp only [BitVec.getElem_extractLsb', BitVec.getLsbD_append]
  rw [if_neg (by omega), if_neg (by omega), if_neg (by omega), if_neg (by omega),
    ← BitVec.getLsbD_eq_getElem hi]
  congr 1; omega

@[simp] theorem fieldS_join : fieldS (joinFields x s o a b) = s := by
  unfold fieldS joinFields
  ext i hi
  simp only [BitVec.getElem_extractLsb', BitVec.getLsbD_append]
  rw [if_neg (by omega), if_neg (by omega), if_neg (by omega), if_pos (by omega), ← BitVec.getLsbD_eq_getElem hi]
  congr 1; omega

@[simp] theorem fieldOpc_join : fieldOpc (joinFields x s o a b) = o := by
  unfold fieldOpc joinFields
  ext i hi
  simp only [BitVec.getElem_extractLsb', BitVec.getLsbD_append]
  rw [if_neg (by omega), if_neg (by omega), if_pos (by omega), ← BitVec.getLsbD_eq_getElem hi]
  congr 1; omega

@[simp] theorem fieldA_join : fieldA (joinFields x s o a b) = a := by
  unfold fieldA joinFields
  ext i hi
  simp only [BitVec.getElem_extractLsb', BitVec.getLsbD_append]
  rw [if_neg (by omega), if_pos (by omega), ← BitVec.getLsbD_eq_getElem hi]
  congr 1; omega

@[simp] theorem fieldB_join : fieldB (joinFields x s o a b) = b := by
  unfold fieldB joinFields
  ext i hi
  simp only [BitVec.getElem_extractLsb', BitVec.getLsbD_append]
  rw [if_pos (by omega), ← BitVec.getLsbD_eq_getElem hi]
  congr 1; omega

end

/-- A word is made of its five fields. -/
theorem join_fields (w : OpWord) : joinFields (fieldRsv w) (fieldS w) (fieldOpc w) (fieldA w) (fieldB w) = w := by
  unfold joinFields fieldRsv fieldS fieldOpc fieldA fieldB
  ext i hi
  conv_rhs => rw [← BitVec.getLsbD_eq_getElem hi]
  simp only [BitVec.getElem_append, BitVec.getElem_extractLsb']
  split_ifs <;> congr 1 <;> omega

/-- The three stored bytes of a word make it again. -/
@[simp] theorem wordOfBytes_bytes (w : OpWord) :
    wordOfBytes (w.extractLsb' 16 8) (w.extractLsb' 8 8) (w.extractLsb' 0 8) = w := by
  unfold wordOfBytes
  ext i hi
  conv_rhs => rw [← BitVec.getLsbD_eq_getElem hi]
  simp only [BitVec.getElem_append, BitVec.getElem_extractLsb']
  split_ifs <;> congr 1 <;> omega

theorem encode_eq (i : Instr) :
    encode i = joinFields 0 (sideFieldOf i) (opcodeOf i) (fieldAOf i) (fieldBOf i) := rfl

@[simp] theorem fieldRsv_encode (i : Instr) : fieldRsv (encode i) = 0 := by rw [encode_eq]; exact fieldRsv_join ..

@[simp] theorem fieldS_encode (i : Instr) : fieldS (encode i) = sideFieldOf i := by rw [encode_eq]; exact fieldS_join ..

@[simp] theorem fieldOpc_encode (i : Instr) : fieldOpc (encode i) = opcodeOf i := by rw [encode_eq]; exact fieldOpc_join ..

@[simp] theorem fieldA_encode (i : Instr) : fieldA (encode i) = fieldAOf i := by rw [encode_eq]; exact fieldA_join ..

@[simp] theorem fieldB_encode (i : Instr) : fieldB (encode i) = fieldBOf i := by rw [encode_eq]; exact fieldB_join ..

/-- Reading the stored bytes of a word is decoding the word. -/
theorem decode_bytesOfWord (w : OpWord) (rest : List Byte) :
    decode (bytesOfWord w ++ rest) = match decodeWord w with
      | .ok i => .ok (i, rest)
      | .error why => .error (.illegalWord why) := by
  show (match decodeWord (wordOfBytes _ _ _) with
    | .ok i => Except.ok (i, rest)
    | .error why => Except.error (NoOp.illegalWord why)) = _
  rw [wordOfBytes_bytes]

@[simp] theorem sideOfBit_bitOfSide (s : Side) : sideOfBit (bitOfSide s) = s := by cases s <;> rfl

@[simp] theorem bitOfSide_sideOfBit (b : BitVec 1) : bitOfSide (sideOfBit b) = b := by revert b; decide

@[simp] theorem answerOfBit_bitOfAnswer (e : Answer) : answerOfBit (bitOfAnswer e) = e := by cases e <;> rfl

@[simp] theorem bitOfAnswer_answerOfBit (b : BitVec 1) : bitOfAnswer (answerOfBit b) = b := by revert b; decide

/-- A word whose fields are those of an operation is its encoding. -/
theorem encode_eq_of_fields {w : OpWord} {i : Instr} (hr : fieldRsv w = 0) (hs : sideFieldOf i = fieldS w)
    (ho : opcodeOf i = fieldOpc w) (ha : fieldAOf i = fieldA w) (hb : fieldBOf i = fieldB w) : encode i = w := by
  rw [encode_eq, hs, ho, ha, hb, ← hr, join_fields]

/-- No two rows of the operation map match one word: where both masks ask for a bit, the patterns differ in one. -/
theorem opTable_rows_disjoint :
    opTable.Pairwise (fun r q => r.pattern &&& (r.mask &&& q.mask) ≠ q.pattern &&& (r.mask &&& q.mask)) := by
  decide

end Sys2Proof
end

