-- ==== Sys2Proof/Laws/State.lean ====
section
/-! SUPPORT. The small lemmas of the state record: one per field per update, and the laws of the per-side accessors. -/

namespace Sys2Proof
namespace Machine

variable (σ : State) (s t : Side) (c d : SideState)

/-! ## Sides -/

@[simp] theorem peer_peer : peer (peer s) = s := by cases s <;> rfl

@[simp] theorem peer_ne : peer s ≠ s := by cases s <;> decide

@[simp] theorem ne_peer : s ≠ peer s := by cases s <;> decide

theorem eq_or_eq_peer : t = s ∨ t = peer s := by cases s <;> cases t <;> decide

/-! ## Replacing a side's context -/

@[simp] theorem setSide_side_same : (σ.setSide s c).side s = c := by cases s <;> rfl

@[simp] theorem setSide_side_peer : (σ.setSide s c).side (peer s) = σ.side (peer s) := by cases s <;> rfl

@[simp] theorem setSide_peer_side : (σ.setSide (peer s) c).side s = σ.side s := by cases s <;> rfl

theorem setSide_side_of_ne (h : t ≠ s) : (σ.setSide s c).side t = σ.side t := by
  cases s <;> cases t <;> first | rfl | exact absurd rfl h

@[simp] theorem setSide_setSide : (σ.setSide s c).setSide s d = σ.setSide s d := by cases s <;> rfl

@[simp] theorem setSide_side_self : σ.setSide s (σ.side s) = σ := by cases s <;> rfl

theorem setSide_peer_comm : (σ.setSide s c).setSide (peer s) d = (σ.setSide (peer s) d).setSide s c := by
  cases s <;> rfl

@[simp] theorem setSide_mode : (σ.setSide s c).mode = σ.mode := by cases s <;> rfl

@[simp] theorem setSide_fcause : (σ.setSide s c).fcause = σ.fcause := by cases s <;> rfl

@[simp] theorem setSide_fside : (σ.setSide s c).fside = σ.fside := by cases s <;> rfl

@[simp] theorem setSide_trace : (σ.setSide s c).trace = σ.trace := by cases s <;> rfl

@[simp] theorem setSide_outs : (σ.setSide s c).outs = σ.outs := by cases s <;> rfl

@[simp] theorem setSide_draws : (σ.setSide s c).draws = σ.draws := by cases s <;> rfl

/-! ## Driving a port -/

@[simp] theorem output_side (e : PortEvent) : (output σ e).side s = σ.side s := by cases s <;> rfl

@[simp] theorem output_mode (e : PortEvent) : (output σ e).mode = σ.mode := rfl

@[simp] theorem output_fcause (e : PortEvent) : (output σ e).fcause = σ.fcause := rfl

@[simp] theorem output_fside (e : PortEvent) : (output σ e).fside = σ.fside := rfl

@[simp] theorem output_trace (e : PortEvent) : (output σ e).trace = σ.trace := rfl

@[simp] theorem output_outs (e : PortEvent) : (output σ e).outs = σ.outs ++ [e] := rfl

@[simp] theorem output_draws (e : PortEvent) : (output σ e).draws = σ.draws := rfl

/-! ## The fatal condition -/

@[simp] theorem raiseFatal_side (k : Cause) : (raiseFatal σ k t).side s = σ.side s := by cases s <;> rfl

@[simp] theorem raiseFatal_mode (k : Cause) : (raiseFatal σ k t).mode = .fatal := rfl

@[simp] theorem raiseFatal_fcause (k : Cause) : (raiseFatal σ k t).fcause = k := rfl

@[simp] theorem raiseFatal_fside (k : Cause) : (raiseFatal σ k t).fside = t := rfl

@[simp] theorem raiseFatal_trace (k : Cause) : (raiseFatal σ k t).trace = σ.trace := rfl

@[simp] theorem raiseFatal_outs (k : Cause) : (raiseFatal σ k t).outs = σ.outs := rfl

@[simp] theorem raiseFatal_draws (k : Cause) : (raiseFatal σ k t).draws = σ.draws := rfl

/-! ## Setting the mode -/

@[simp] theorem withMode_side (m : Mode) : ({ σ with mode := m } : State).side s = σ.side s := by cases s <;> rfl

/-! ## Taking bytes from the trace -/

@[simp] theorem withTrace_side (tr : List Byte) : ({ σ with trace := tr } : State).side s = σ.side s := by
  cases s <;> rfl

/-! ## Reset -/

@[simp] theorem resetBlock_side : (resetBlock σ).side s = resetSide (σ.draws + 1) s := by cases s <;> rfl

@[simp] theorem resetBlock_mode : (resetBlock σ).mode = .off := rfl

@[simp] theorem resetBlock_fcause : (resetBlock σ).fcause = .none := rfl

@[simp] theorem resetBlock_fside : (resetBlock σ).fside = .s0 := rfl

@[simp] theorem resetBlock_trace : (resetBlock σ).trace = σ.trace := rfl

@[simp] theorem resetBlock_outs : (resetBlock σ).outs = σ.outs := rfl

@[simp] theorem resetBlock_draws : (resetBlock σ).draws = σ.draws + 1 := rfl

/-! ## Equality -/

/-- Two states are equal when they agree on both sides and on every global field. -/
theorem State.ext_sides {σ τ : State} (hs : ∀ s, σ.side s = τ.side s) (hm : σ.mode = τ.mode)
    (hc : σ.fcause = τ.fcause) (hf : σ.fside = τ.fside) (ht : σ.trace = τ.trace) (ho : σ.outs = τ.outs)
    (hd : σ.draws = τ.draws) : σ = τ := by
  have h0 := hs .s0
  have h1 := hs .s1
  cases σ; cases τ
  simp_all [State.side]

end Machine
end Sys2Proof
end

