-- ==== Sys2Proof/Laws/Memory.lean ====
section
/-! SUPPORT. The laws of the receive buffer: read after write, and that every operation over it keeps the canonical form. -/

namespace Sys2Proof
namespace Machine

/-! ## The list of written bytes -/

@[simp] theorem memRead_nil (a : Nat) : memRead? [] a = none := rfl

@[simp] theorem memRead_memWrite_same (m : List Host.Cell) (a : Nat) (d : Byte) :
    memRead? (memWrite m a d) a = some d := by
  induction m with
  | nil => simp [memWrite, memRead?]
  | cons x m ih =>
    obtain ⟨k, b⟩ := x
    unfold memWrite
    split
    · simp [memRead?]
    · split
      · next h => subst h; simp [memRead?]
      · next h => simp [memRead?, h, ih]

theorem memRead_memWrite_of_ne (m : List Host.Cell) (a a' : Nat) (d : Byte) (h : a' ≠ a) :
    memRead? (memWrite m a d) a' = memRead? m a' := by
  induction m with
  | nil => simp [memWrite, memRead?, h]
  | cons x m ih =>
    obtain ⟨k, b⟩ := x
    unfold memWrite
    split
    · simp [memRead?, h]
    · split
      · next hk => subst hk; simp [memRead?, h]
      · simp [memRead?, ih]

/-- The addresses of a written list are those of the list before and the written one. -/
theorem mem_memWrite {m : List Host.Cell} {a : Nat} {d : Byte} {x : Host.Cell} (h : x ∈ memWrite m a d) :
    x ∈ m ∨ x = (a, d) := by
  induction m with
  | nil => simpa [memWrite] using h
  | cons y m ih =>
    obtain ⟨k, b⟩ := y
    unfold memWrite at h
    split at h
    · simp only [List.mem_cons] at h ⊢; tauto
    · split at h
      · next hk => subst hk; simp only [List.mem_cons] at h ⊢; tauto
      · simp only [List.mem_cons] at h ⊢
        rcases h with h | h
        · exact .inl (.inl h)
        · rcases ih h with h | h
          · exact .inl (.inr h)
          · exact .inr h

theorem memWrite_sorted {m : List Host.Cell} (a : Nat) (d : Byte) (h : m.Pairwise (fun x y => x.1 < y.1)) :
    (memWrite m a d).Pairwise (fun x y => x.1 < y.1) := by
  induction m with
  | nil => simp [memWrite]
  | cons y m ih =>
    obtain ⟨k, b⟩ := y
    rw [List.pairwise_cons] at h
    unfold memWrite
    split
    · next hlt =>
      refine List.pairwise_cons.2 ⟨fun x hx => ?_, List.pairwise_cons.2 h⟩
      rcases List.mem_cons.1 hx with rfl | hx
      · exact hlt
      · exact hlt.trans (h.1 x hx)
    · split
      · next hk => subst hk; exact List.pairwise_cons.2 h
      · refine List.pairwise_cons.2 ⟨fun x hx => ?_, ih h.2⟩
        rcases mem_memWrite hx with hx | rfl
        · exact h.1 x hx
        · simp only; omega

/-- Writing keeps the canonical form. -/
theorem memWrite_wf {m : List Host.Cell} {a : Nat} (d : Byte) (ha : a < Config.N) (h : Memory.wf m = true) :
    Memory.wf (memWrite m a d) = true := by
  simp only [Memory.wf, Bool.and_eq_true, decide_eq_true_eq, List.all_eq_true] at h ⊢
  refine ⟨memWrite_sorted a d h.1, fun x hx => ?_⟩
  rcases mem_memWrite hx with hx | rfl
  · exact h.2 x hx
  · exact ha

/-- The empty list, a receive buffer nothing has been written to, has the canonical form. -/
theorem memory_nil_wf : Memory.wf [] = true := rfl

/-- The reset state's receive buffers have the canonical form. -/
theorem reset_memory_wf (s : Side) : Memory.wf (State.reset.side s).rxbuf = true := by cases s <;> rfl

/-- So have those the operation RESET leaves. -/
theorem resetSide_memory_wf (n : Nat) (s : Side) : Memory.wf (resetSide n s).rxbuf = true := rfl

/-- Two canonical lists that read the same at every address are equal: equal receive buffers are equal data. -/
theorem memory_ext {m m' : List Host.Cell} (h : m.Pairwise (fun x y => x.1 < y.1))
    (h' : m'.Pairwise (fun x y => x.1 < y.1)) (hr : ∀ a, memRead? m a = memRead? m' a) : m = m' := by
  have none_of_lt : ∀ (l : List Host.Cell) (a : Nat), (∀ x ∈ l, a < x.1) → memRead? l a = none := by
    intro l a hl
    induction l with
    | nil => rfl
    | cons x l ih =>
      obtain ⟨k, b⟩ := x
      have hk : a < k := hl (k, b) (by simp)
      simp only [memRead?, if_neg (Nat.ne_of_lt hk)]
      exact ih fun x hx => hl x (by simp [hx])
  induction m generalizing m' with
  | nil =>
    cases m' with
    | nil => rfl
    | cons y m' =>
      obtain ⟨k, b⟩ := y
      have := hr k
      simp [memRead?] at this
  | cons x m ih =>
    obtain ⟨k, b⟩ := x
    cases m' with
    | nil =>
      have := hr k
      simp [memRead?] at this
    | cons y m' =>
      obtain ⟨k', b'⟩ := y
      rw [List.pairwise_cons] at h h'
      have hkk : k = k' := by
        rcases Nat.lt_trichotomy k k' with hlt | heq | hlt
        · have := hr k
          rw [none_of_lt ((k', b') :: m') k (by
            intro z hz
            rcases List.mem_cons.1 hz with rfl | hz
            · exact hlt
            · exact hlt.trans (h'.1 z hz))] at this
          simp [memRead?] at this
        · exact heq
        · have := hr k'
          rw [none_of_lt ((k, b) :: m) k' (by
            intro z hz
            rcases List.mem_cons.1 hz with rfl | hz
            · exact hlt
            · exact hlt.trans (h.1 z hz))] at this
          simp [memRead?] at this
      subst hkk
      have hbb : b = b' := by simpa [memRead?] using hr k
      subst hbb
      congr 1
      refine ih h.2 h'.2 fun a => ?_
      by_cases hak : a = k
      · subst hak
        rw [none_of_lt m a h.1, none_of_lt m' a h'.1]
      · simpa [memRead?, hak] using hr a

/-! ## Reading and writing a receive buffer -/

theorem addr_lt (a : RxAddr) : a.toNat < Config.N := a.isLt

@[simp] theorem rxRead_rxWrite_same (σ : State) (s : Side) (a : RxAddr) (d : Byte) :
    rxRead (rxWrite σ s a d) s a = d := by
  simp [rxRead, rxWrite]

theorem rxRead_rxWrite_of_addr_ne (σ : State) (s : Side) (a a' : RxAddr) (d : Byte) (h : a' ≠ a) :
    rxRead (rxWrite σ s a d) s a' = rxRead σ s a' := by
  have hn : a'.toNat ≠ a.toNat := fun e => h (BitVec.eq_of_toNat_eq e)
  simp [rxRead, rxWrite, memRead_memWrite_of_ne _ _ _ _ hn]

theorem rxRead_rxWrite_of_side_ne (σ : State) (s t : Side) (a a' : RxAddr) (d : Byte) (h : t ≠ s) :
    rxRead (rxWrite σ s a d) t a' = rxRead σ t a' := by
  simp [rxRead, rxWrite, setSide_side_of_ne _ _ _ _ h]

/-- A read depends on the list and the number of drawings only. -/
theorem rxRead_congr {σ τ : State} {s : Side} (hm : (τ.side s).rxbuf = (σ.side s).rxbuf) (hd : τ.draws = σ.draws)
    (a : RxAddr) : rxRead τ s a = rxRead σ s a := by
  simp [rxRead, hm, hd]

/-- Writing keeps the canonical form of every side's receive buffer. -/
theorem rxWrite_memory_wf (σ : State) (s t : Side) (a : RxAddr) (d : Byte)
    (h : ∀ u, Memory.wf (σ.side u).rxbuf = true) : Memory.wf ((rxWrite σ s a d).side t).rxbuf = true := by
  rcases eq_or_eq_peer s t with rfl | rfl
  · simpa [rxWrite] using memWrite_wf d (addr_lt a) (h t)
  · simpa [rxWrite] using h (peer s)

end Machine
end Sys2Proof
end

