-- ==== Sys2Proof/Laws/Ops.lean ====
section
/-! SUPPORT. One specification lemma per shared operation: the guards as the rows of the enabling table, what each
primitive does to every field, and what one scan step does. -/

namespace Sys2Proof
namespace Machine

variable (σ τ : State) (s t : Side)

/-! ## Guards -/

@[simp] theorem whenEnabled_none (o : Host.Outcome State Fault Refusal) : whenEnabled none o = o := rfl

@[simp] theorem whenEnabled_some (r : Refusal) (o : Host.Outcome State Fault Refusal) :
    whenEnabled (some r) o = .refused r := rfl

theorem whenEnabled_next_iff (g : Option Refusal) (o : Host.Outcome State Fault Refusal) :
    whenEnabled g o = .next τ ↔ g = none ∧ o = .next τ := by
  cases g <;> simp

theorem whenEnabled_fault_iff (g : Option Refusal) (o : Host.Outcome State Fault Refusal) (f : Fault) :
    whenEnabled g o = .fault f ↔ g = none ∧ o = .fault f := by
  cases g <;> simp

theorem guardRun_none_iff : guardRun σ = none ↔ σ.mode = .run := by
  simp [guardRun]

theorem guardEnable_none_iff : guardEnable σ = none ↔ σ.mode = .off := by
  simp [guardEnable]

theorem guardNtake_none_iff : guardNtake s σ = none ↔ Enabled (.ntake s) σ := by
  unfold guardNtake Enabled
  split_ifs <;> simp_all

theorem guardRstep_none_iff : guardRstep s σ = none ↔ Enabled (.rstep s) σ := by
  unfold guardRstep Enabled
  split_ifs <;> simp_all

theorem guardTxissue_none_iff (e : Answer) : guardTxissue s σ = none ↔ Enabled (.txissue s e) σ := by
  unfold guardTxissue Enabled qne
  split_ifs <;> (simp_all; try omega)

theorem guardTxdefer_none_iff : guardTxdefer s σ = none ↔ Enabled (.txdefer s) σ := by
  unfold guardTxdefer Enabled qne
  split_ifs <;> (simp_all; try omega)

/-! ## The enabling table, row by row -/

theorem enabled_ntake_iff :
    Enabled (.ntake s) σ ↔ σ.mode = .run ∧ (σ.side s).ph = .idle ∧ (σ.side s).nv = true := Iff.rfl

theorem enabled_rstep_iff : Enabled (.rstep s) σ ↔ σ.mode = .run ∧ (σ.side s).ph = .scan := Iff.rfl

theorem enabled_txissue_iff (e : Answer) : Enabled (.txissue s e) σ ↔
    σ.mode = .run ∧ (σ.side s).ph = .idle ∧ 1 ≤ (σ.side s).qcnt.toNat ∧ (σ.side s).txf = false := Iff.rfl

theorem enabled_txdefer_iff : Enabled (.txdefer s) σ ↔
    σ.mode = .run ∧ (σ.side s).ph = .idle ∧ 1 ≤ (σ.side s).qcnt.toNat ∧ (σ.side s).txf = true := Iff.rfl

/-! ## The meanings, enabled -/

theorem execDmawr_next_iff (a : RxAddr) (d : Byte) :
    execDmawr s a d σ = .next τ ↔ σ.mode = .run ∧ rxWrite σ s a d = τ := by
  simp [execDmawr, whenEnabled_next_iff, guardRun_none_iff]

theorem execRxhalf_next_iff : execRxhalf s σ = .next τ ↔ σ.mode = .run ∧ nPost σ s 0 = τ := by
  simp [execRxhalf, whenEnabled_next_iff, guardRun_none_iff]

theorem execRxfull_next_iff : execRxfull s σ = .next τ ↔ σ.mode = .run ∧ nPost σ s 1 = τ := by
  simp [execRxfull, whenEnabled_next_iff, guardRun_none_iff]

theorem execTxdone_next_iff :
    execTxdone s σ = .next τ ↔ σ.mode = .run ∧ σ.setSide s { σ.side s with txf := false } = τ := by
  simp [execTxdone, whenEnabled_next_iff, guardRun_none_iff]

theorem execNtake_next_iff : execNtake s σ = .next τ ↔ Enabled (.ntake s) σ ∧ takeAndStart s σ = τ := by
  simp [execNtake, whenEnabled_next_iff, guardNtake_none_iff]

theorem execRstep_next_iff :
    execRstep s σ = .next τ ↔ Enabled (.rstep s) σ ∧
      ¬ (scanAppends σ s = true ∧ Config.L ≤ (σ.side s).cnt.toNat) ∧ scanStep σ s = τ := by
  unfold execRstep
  rw [whenEnabled_next_iff, guardRstep_none_iff]
  split
  · next h => simp only [Bool.and_eq_true, decide_eq_true_eq] at h; simp [h]
  · next h => simp only [Bool.and_eq_true, decide_eq_true_eq] at h; simp [h]

theorem execTxissue_next_iff (e : Answer) :
    execTxissue s e σ = .next τ ↔ Enabled (.txissue s e) σ ∧ afterAnswer s e (startTransmit s σ) = τ := by
  simp [execTxissue, whenEnabled_next_iff, guardTxissue_none_iff σ s e]

theorem execTxdefer_next_iff : execTxdefer s σ = .next τ ↔ Enabled (.txdefer s) σ ∧ σ = τ := by
  simp [execTxdefer, whenEnabled_next_iff, guardTxdefer_none_iff]

theorem execEnable_next_iff (fc : BitVec 4) :
    execEnable fc σ = .next τ ↔ σ.mode = .off ∧ fcLegal fc = true ∧
      (if fc = 0 then initialise σ else raiseFatal σ (fcCause fc) (fcSide fc)) = τ := by
  unfold execEnable
  rw [whenEnabled_next_iff, guardEnable_none_iff]
  by_cases hl : fcLegal fc = true
  · by_cases h0 : fc = 0
    · rw [if_pos hl, if_pos h0, if_pos h0]; simp only [Host.Outcome.next.injEq, hl, true_and]
    · rw [if_pos hl, if_neg h0, if_neg h0]; simp only [Host.Outcome.next.injEq, hl, true_and]
  · rw [if_neg hl]; simp [hl]

theorem execReset_next_iff : execReset σ = .next τ ↔ resetBlock σ = τ := by
  simp [execReset]

/-! ## What a next state can be: one case per operation -/

/-- Everything an operation that is accepted can do. -/
theorem exec_next_cases {i : Instr} {σ τ : State} (h : exec i σ = .next τ) :
    (i = .reset ∧ τ = resetBlock σ) ∨
    (i = .enable 0 ∧ σ.mode = .off ∧ τ = initialise σ) ∨
    (∃ fc, i = .enable fc ∧ fc ≠ 0 ∧ fcLegal fc = true ∧ σ.mode = .off ∧
      τ = raiseFatal σ (fcCause fc) (fcSide fc)) ∨
    (∃ s a d, i = .dmawr s a d ∧ σ.mode = .run ∧ τ = rxWrite σ s a d) ∨
    (∃ s, i = .rxhalf s ∧ σ.mode = .run ∧ τ = nPost σ s 0) ∨
    (∃ s, i = .rxfull s ∧ σ.mode = .run ∧ τ = nPost σ s 1) ∨
    (∃ s, i = .txdone s ∧ σ.mode = .run ∧ τ = σ.setSide s { σ.side s with txf := false }) ∨
    (∃ s, i = .ntake s ∧ Enabled (.ntake s) σ ∧ τ = takeAndStart s σ) ∨
    (∃ s, i = .rstep s ∧ Enabled (.rstep s) σ ∧
      ¬ (scanAppends σ s = true ∧ Config.L ≤ (σ.side s).cnt.toNat) ∧ τ = scanStep σ s) ∨
    (∃ s e, i = .txissue s e ∧ Enabled (.txissue s e) σ ∧ τ = afterAnswer s e (startTransmit s σ)) ∨
    (∃ s, i = .txdefer s ∧ Enabled (.txdefer s) σ ∧ τ = σ) := by
  cases i with
  | reset => exact .inl ⟨rfl, ((execReset_next_iff σ τ).1 h).symm⟩
  | enable fc =>
    obtain ⟨ho, hl, ht⟩ := (execEnable_next_iff σ τ fc).1 h
    by_cases h0 : fc = 0
    · rw [if_pos h0] at ht; subst h0; exact .inr (.inl ⟨rfl, ho, ht.symm⟩)
    · rw [if_neg h0] at ht; exact .inr (.inr (.inl ⟨fc, rfl, h0, hl, ho, ht.symm⟩))
  | dmawr s a d =>
    obtain ⟨hm, ht⟩ := (execDmawr_next_iff σ τ s a d).1 h
    exact .inr (.inr (.inr (.inl ⟨s, a, d, rfl, hm, ht.symm⟩)))
  | rxhalf s =>
    obtain ⟨hm, ht⟩ := (execRxhalf_next_iff σ τ s).1 h
    exact .inr (.inr (.inr (.inr (.inl ⟨s, rfl, hm, ht.symm⟩))))
  | rxfull s =>
    obtain ⟨hm, ht⟩ := (execRxfull_next_iff σ τ s).1 h
    exact .inr (.inr (.inr (.inr (.inr (.inl ⟨s, rfl, hm, ht.symm⟩)))))
  | txdone s =>
    obtain ⟨hm, ht⟩ := (execTxdone_next_iff σ τ s).1 h
    exact .inr (.inr (.inr (.inr (.inr (.inr (.inl ⟨s, rfl, hm, ht.symm⟩))))))
  | ntake s =>
    obtain ⟨hm, ht⟩ := (execNtake_next_iff σ τ s).1 h
    exact .inr (.inr (.inr (.inr (.inr (.inr (.inr (.inl ⟨s, rfl, hm, ht.symm⟩)))))))
  | rstep s =>
    obtain ⟨hm, hf, ht⟩ := (execRstep_next_iff σ τ s).1 h
    exact .inr (.inr (.inr (.inr (.inr (.inr (.inr (.inr (.inl ⟨s, rfl, hm, hf, ht.symm⟩))))))))
  | txissue s e =>
    obtain ⟨hm, ht⟩ := (execTxissue_next_iff σ τ s e).1 h
    exact .inr (.inr (.inr (.inr (.inr (.inr (.inr (.inr (.inr (.inl ⟨s, e, rfl, hm, ht.symm⟩)))))))))
  | txdefer s =>
    obtain ⟨hm, ht⟩ := (execTxdefer_next_iff σ τ s).1 h
    exact .inr (.inr (.inr (.inr (.inr (.inr (.inr (.inr (.inr (.inr ⟨s, rfl, hm, ht.symm⟩)))))))))

/-! ## The primitives, field by field -/

theorem nPost_eq (v : Half) : nPost σ s v = σ.setSide s { σ.side s with nv := true, nval := v } := rfl

/-- `NTAKE s`, enabled: the slot is emptied, a pass over the half it named starts with the counter and the working
buffer cleared, and nothing else changes. -/
theorem takeAndStart_eq :
    takeAndStart s σ = σ.setSide s { σ.side s with
      nv := false, ph := .scan, sh := (σ.side s).nval, idx := 0, cnt := 0, wb := zeroFrame } := by
  cases s <;> rfl

/-- `TXISSUE s` up to the driver's answer. -/
theorem startTransmit_eq :
    startTransmit s σ = output (σ.setSide s { σ.side s with
      qhead := (σ.side s).qhead + 1, qcnt := (σ.side s).qcnt - 1,
      txf := true, txbuf := qHeadFrame (σ.side s) }) (.txStart s (qHeadFrame (σ.side s)) Config.L) := by
  cases s <;> rfl

/-- `ENABLE` with `fc = 0`: each side initialised. -/
theorem initialise_side : (initialise σ).side s = initSide (σ.side s) := by cases s <;> rfl

@[simp] theorem initialise_mode : (initialise σ).mode = .run := rfl

@[simp] theorem initialise_fcause : (initialise σ).fcause = σ.fcause := rfl

@[simp] theorem initialise_fside : (initialise σ).fside = σ.fside := rfl

@[simp] theorem initialise_draws : (initialise σ).draws = σ.draws := rfl

@[simp] theorem initialise_trace : (initialise σ).trace = σ.trace := rfl

theorem initialise_outs :
    (initialise σ).outs = σ.outs ++ [.rxStart .s0 Config.N, .rxStart .s1 Config.N] := by
  show (σ.outs ++ [_]) ++ [_] = _
  simp

/-! ## The flush -/

/-- The context a flush leaves on the destination side: pushed where there is a free slot, dropped where there is none. -/
def flushed (c : SideState) (f : Frame) : SideState :=
  if c.qcnt.toNat < Config.M then
    { c with qmem := c.qmem.setIfInBounds c.qtail.toNat f, qtail := c.qtail + 1, qcnt := c.qcnt + 1 }
  else c

theorem flushTo_eq (f : Frame) : flushTo σ t f = σ.setSide t (flushed (σ.side t) f) := by
  unfold flushTo flushed qPush qFree
  by_cases h : (σ.side t).qcnt.toNat < Config.M
  · rw [if_pos (by omega), if_pos h]
  · rw [if_neg (by omega), if_neg h, setSide_side_self]

/-! ## One scan step -/

/-- What `RSTEP s` leaves on its own side: working buffer and count as appended and reset, then the index stepped or the
pass ended. -/
def scanOwn (σ : State) (s : Side) : SideState :=
  if isLast (σ.side s).idx then
    { σ.side s with wb := wbAfter σ s, cnt := cntLeft (cntAfter σ s), ph := .idle }
  else
    { σ.side s with wb := wbAfter σ s, cnt := cntLeft (cntAfter σ s), idx := (σ.side s).idx + 1 }

/-- What `RSTEP s` leaves on the peer's side: its queue, after a flush. -/
def scanPeer (σ : State) (s : Side) : SideState :=
  if scanFlushes σ s then flushed (σ.side (peer s)) (wbAfter σ s) else σ.side (peer s)

theorem scanStep_eq : scanStep σ s = (σ.setSide s (scanOwn σ s)).setSide (peer s) (scanPeer σ s) := by
  have key : ∀ (x : SideState) (f : Bool),
      advance (if f then flushTo (σ.setSide s x) (peer s) (wbAfter σ s) else σ.setSide s x) s =
        (σ.setSide s (if isLast x.idx then { x with ph := .idle } else { x with idx := x.idx + 1 })).setSide (peer s)
          (if f then flushed (σ.side (peer s)) (wbAfter σ s) else σ.side (peer s)) := by
    intro x f
    cases f
    · unfold advance
      cases s <;> by_cases hl : isLast x.idx = true <;>
        simp [hl, State.setSide, State.side, peer]
    · simp only [if_true, flushTo_eq]
      unfold advance
      cases s <;> by_cases hl : isLast x.idx = true <;>
        simp [hl, State.setSide, State.side, peer]
  unfold scanStep scanOwn scanPeer
  exact key _ _

/-- The append test of R122 in terms of the two bytes read. -/
theorem scanAppends_iff :
    scanAppends σ s = true ↔ rxRead σ s (windowAddr (σ.side s).sh (σ.side s).idx) ≠ 0 ∨
      (0 < (σ.side s).idx.toNat ∧ rxRead σ s (windowAddr (σ.side s).sh ((σ.side s).idx - 1)) ≠ 0) := by
  unfold scanAppends appendTest scanByte scanPrev
  by_cases h : 0 < (σ.side s).idx.toNat <;> simp [h]

@[simp] theorem scanOwn_wb : (scanOwn σ s).wb = wbAfter σ s := by unfold scanOwn; split <;> rfl

@[simp] theorem scanOwn_cnt : (scanOwn σ s).cnt = cntLeft (cntAfter σ s) := by unfold scanOwn; split <;> rfl

/-- The count after the append, as a number. -/
theorem cntAfter_toNat (h : (σ.side s).cnt.toNat < Config.L) :
    (cntAfter σ s).toNat = (σ.side s).cnt.toNat + if scanAppends σ s then 1 else 0 := by
  simp only [Config.L] at h
  unfold cntAfter
  split
  · rw [BitVec.toNat_add]; simp; omega
  · rfl

/-- The count a step leaves, as a number. -/
theorem cntLeft_toNat (c : BitVec 5) : (cntLeft c).toNat = if c.toNat = Config.L then 0 else c.toNat := by
  unfold cntLeft; split <;> rfl

/-- An enabled step of a pass with the count in range is taken. -/
theorem execRstep_of_scan (hm : σ.mode = .run) (hp : (σ.side s).ph = .scan) (hc : (σ.side s).cnt.toNat < Config.L) :
    exec (.rstep s) σ = .next (scanStep σ s) :=
  (execRstep_next_iff σ _ s).2 ⟨⟨hm, hp⟩, by omega, rfl⟩

@[simp] theorem scanStep_side_same : (scanStep σ s).side s = scanOwn σ s := by
  rw [scanStep_eq]; simp

@[simp] theorem scanStep_side_peer : (scanStep σ s).side (peer s) = scanPeer σ s := by
  rw [scanStep_eq]; simp

@[simp] theorem scanStep_mode : (scanStep σ s).mode = σ.mode := by rw [scanStep_eq]; simp

@[simp] theorem scanStep_fcause : (scanStep σ s).fcause = σ.fcause := by rw [scanStep_eq]; simp

@[simp] theorem scanStep_fside : (scanStep σ s).fside = σ.fside := by rw [scanStep_eq]; simp

@[simp] theorem scanStep_trace : (scanStep σ s).trace = σ.trace := by rw [scanStep_eq]; simp

@[simp] theorem scanStep_outs : (scanStep σ s).outs = σ.outs := by rw [scanStep_eq]; simp

@[simp] theorem scanStep_draws : (scanStep σ s).draws = σ.draws := by rw [scanStep_eq]; simp

end Machine
end Sys2Proof
end

