-- ==== Sys2Proof/Laws/PerInstr.lean ====
section
/-! SUPPORT. One family over the operations as syntax: the encoded word of every operation carries its operation code and no
reserved bit, and matches exactly its own row of the operation map, by mnemonic. -/

namespace Sys2Proof
namespace Laws
namespace OpcodeField

/-- The encoded word holds the operation's code, its side and zero reserved bits, and the operation map has one row under
that code, named by the operation's mnemonic (30_encoding.md R81, R84). -/
def Statement (i : Instr) : Prop :=
  fieldRsv (encode i) = 0 ∧ fieldS (encode i) = sideFieldOf i ∧
    (opTable.filter (fun r => r.opc = fieldOpc (encode i))).map OpRow.mnemonic = [mnemonicOf i]

theorem reset : Statement .reset := ⟨fieldRsv_encode _, fieldS_encode _, by rw [fieldOpc_encode]; rfl⟩

theorem enable (fc : BitVec 4) : Statement (.enable fc) :=
  ⟨fieldRsv_encode _, fieldS_encode _, by rw [fieldOpc_encode]; rfl⟩

theorem dmawr (s : Side) (a : RxAddr) (d : Byte) : Statement (.dmawr s a d) :=
  ⟨fieldRsv_encode _, fieldS_encode _, by rw [fieldOpc_encode]; rfl⟩

theorem rxhalf (s : Side) : Statement (.rxhalf s) :=
  ⟨fieldRsv_encode _, fieldS_encode _, by rw [fieldOpc_encode]; rfl⟩

theorem rxfull (s : Side) : Statement (.rxfull s) :=
  ⟨fieldRsv_encode _, fieldS_encode _, by rw [fieldOpc_encode]; rfl⟩

theorem txdone (s : Side) : Statement (.txdone s) :=
  ⟨fieldRsv_encode _, fieldS_encode _, by rw [fieldOpc_encode]; rfl⟩

theorem ntake (s : Side) : Statement (.ntake s) :=
  ⟨fieldRsv_encode _, fieldS_encode _, by rw [fieldOpc_encode]; rfl⟩

theorem rstep (s : Side) : Statement (.rstep s) :=
  ⟨fieldRsv_encode _, fieldS_encode _, by rw [fieldOpc_encode]; rfl⟩

theorem txissue (s : Side) (e : Answer) : Statement (.txissue s e) :=
  ⟨fieldRsv_encode _, fieldS_encode _, by rw [fieldOpc_encode]; rfl⟩

theorem txdefer (s : Side) : Statement (.txdefer s) :=
  ⟨fieldRsv_encode _, fieldS_encode _, by rw [fieldOpc_encode]; rfl⟩

end OpcodeField
end Laws
end Sys2Proof
end

