-- ==== Sys2Proof/Laws/Queue.lean ====
section
/-! SUPPORT. The laws of the transfer queue: reading a slot after a write, and what clearing, popping and pushing do to the
abstract sequence of 10_state.md R26. -/

namespace Sys2Proof
namespace Machine

variable {c d : SideState} {f : Frame}

/-- A slot inside the ring is read as the vector holds it. -/
theorem slot_eq (m : QueueMem) {j : Nat} (h : j < Config.M) : m.getD j zeroFrame = m[j] := by
  simp [Vector.getD, h]

/-- The head frame is the frame of the slot `QHEAD`. -/
theorem qHeadFrame_eq (c : SideState) : qHeadFrame c = c.qmem[c.qhead.toNat]'c.qhead.isLt := slot_eq _ _

@[simp] theorem qseq_length (c : SideState) : (qseq c).length = c.qcnt.toNat := by simp [qseq]

/-- The sequence depends on the slots, the head and the count only. -/
theorem qseq_congr (h1 : d.qmem = c.qmem) (h2 : d.qhead = c.qhead) (h3 : d.qcnt = c.qcnt) : qseq d = qseq c := by
  unfold qseq; rw [h1, h2, h3]

/-- A queue with count 0 holds nothing. -/
theorem qseq_nil (h : c.qcnt = 0) : qseq c = [] := by unfold qseq; rw [h]; rfl

/-- Stepping the head and lowering the count takes the first frame off the sequence. -/
theorem qseq_pop (h : 1 ≤ c.qcnt.toNat) (h1 : d.qmem = c.qmem) (h2 : d.qhead = c.qhead + 1)
    (h3 : d.qcnt = c.qcnt - 1) : qseq c = qHeadFrame c :: qseq d := by
  have hn : c.qcnt.toNat = d.qcnt.toNat + 1 := by rw [h3, BitVec.toNat_sub]; simp; omega
  have hh := c.qhead.isLt
  unfold qseq
  rw [hn, List.range_succ_eq_map, List.map_cons, List.map_map, h1, h2]
  congr 1
  · unfold qHeadFrame; congr 1; simp only [Config.M]; omega
  · apply List.map_congr_left
    intro i _
    have hs : (c.qhead + 1).toNat = (c.qhead.toNat + 1) % 16 := by rw [BitVec.toNat_add]; rfl
    have hk : (c.qhead.toNat + (i + 1)) % Config.M = ((c.qhead + 1).toNat + i) % Config.M := by
      rw [hs]; simp only [Config.M]; omega
    exact congrArg (fun j => c.qmem.getD j zeroFrame) hk

/-- Writing the tail slot and raising the count, with a free slot, adds the frame at the end of the sequence. -/
theorem qseq_push (hi : SideInv c) (h : c.qcnt.toNat < Config.M)
    (h1 : d.qmem = c.qmem.setIfInBounds c.qtail.toNat f) (h2 : d.qhead = c.qhead) (h3 : d.qcnt = c.qcnt + 1) :
    qseq d = qseq c ++ [f] := by
  have ht := hi.tail_eq
  have hm : ∀ n, n % Config.M < Config.M := fun n => Nat.mod_lt _ (by decide)
  simp only [Config.M] at h ht hm
  have hn : d.qcnt.toNat = c.qcnt.toNat + 1 := by rw [h3, BitVec.toNat_add]; simp; omega
  unfold qseq
  rw [hn, List.range_succ, List.map_append, h1, h2]
  congr 1
  · apply List.map_congr_left
    intro i hii
    rw [List.mem_range] at hii
    rw [slot_eq _ (hm _), slot_eq _ (hm _), Vector.getElem_setIfInBounds, if_neg]
    omega
  · simp only [List.map_cons, List.map_nil]
    rw [slot_eq _ (hm _), Vector.getElem_setIfInBounds, if_pos ht]

end Machine
end Sys2Proof
end

