-- ==== Sys2Proof/Laws/Trace.lean ====
section
/-! SUPPORT. The laws of traces: presenting and accepting operation by operation, and when an operation is a step. -/

namespace Sys2Proof
namespace Machine

variable {i : Instr} {σ τ : State}

theorem takesStep_iff : takesStep i σ = true ↔ ∃ τ, exec i σ = .next τ := by
  unfold takesStep
  cases exec i σ <;> simp

theorem present_of_next (h : exec i σ = .next τ) : present i σ = τ := by simp only [present, h]

theorem present_of_not_next (h : ∀ τ, exec i σ ≠ .next τ) : present i σ = σ := by
  unfold present
  cases hx : exec i σ with
  | next t => exact absurd hx (h t)
  | fault f => rfl
  | refused r => rfl

@[simp] theorem presentAll_nil : presentAll [] σ = σ := rfl

@[simp] theorem presentAll_cons (tr : List Instr) : presentAll (i :: tr) σ = presentAll tr (present i σ) := rfl

theorem presentAll_append (a b : List Instr) (σ : State) : presentAll (a ++ b) σ = presentAll b (presentAll a σ) := by
  induction a generalizing σ with
  | nil => rfl
  | cons i a ih => exact ih _

@[simp] theorem accept_nil : accept [] σ = some σ := rfl

theorem accept_cons {tr : List Instr} (h : exec i σ = .next τ) : accept (i :: tr) σ = accept tr τ := by
  simp only [accept, h]

/-- An accepted trace begins with an operation that takes a step. -/
theorem accept_cons_iff {tr : List Instr} :
    accept (i :: tr) σ = some τ ↔ ∃ t, exec i σ = .next t ∧ accept tr t = some τ := by
  cases h : exec i σ <;> simp [accept, h]

end Machine
end Sys2Proof
end

