-- ==== Sys2Proof/Tests/Slice0.lean ====
section
/-! SUPPORT. The model's own tests: the well-formedness smoke tests, words written out from the spec's encoding, single
steps against the vectors of 95_test_vectors.md, and for every statement with hypotheses a witness that meets them. -/

namespace Sys2Proof
namespace Tests

open Sys2Proof.Machine

/-! ## Helpers -/

/-- The next state of an outcome, if it is one. -/
def nextOf : Host.Outcome State Fault Refusal → Option State
  | .next t => some t
  | .fault _ => none
  | .refused _ => none

/-- Whether an outcome is a next state of which a test holds. -/
def goesTo (o : Host.Outcome State Fault Refusal) (p : State → Bool) : Bool :=
  match nextOf o with
  | some t => p t
  | none => false

/-- Whether an outcome is this refusal. -/
def refusedFor (o : Host.Outcome State Fault Refusal) (r : Refusal) : Bool :=
  match o with
  | .next _ => false
  | .fault _ => false
  | .refused q => q = r

theorem exists_of_goesTo {o : Host.Outcome State Fault Refusal} {p : State → Bool} (h : goesTo o p = true) :
    ∃ t, o = .next t ∧ p t = true := by
  cases o with
  | next t => exact ⟨t, rfl, h⟩
  | fault f => cases h
  | refused r => cases h

/-- A side after `ENABLE`, with nothing done. -/
abbrev fresh : SideState := SideState.reset

/-- A state in `RUN` with the given sides. -/
def running (c0 c1 : SideState) : State := { State.reset with mode := .run, ctx0 := c0, ctx1 := c1 }

/-- A state in `FATAL`, cause 5, side 1. -/
def halted : State := raiseFatal (running fresh fresh) .txst .s1

/-- A side in the middle of a pass over half 0, with these bytes in its receive buffer. -/
def scanning (idx : BitVec 7) (cnt : BitVec 5) (cells : List Host.Cell) : SideState :=
  { fresh with ph := .scan, idx := idx, cnt := cnt, rxbuf := cells }

/-- The frame `F1` of the transmit vectors. -/
def frame1 : Frame := #v[0x48, 0x49, 0, 0, 0, 0, 0, 0, 0, 0, 0, 0, 0, 0, 0, 0]

/-- The frame `F2` of the transmit vectors. -/
def frame2 : Frame := #v[0x4F, 0x4B, 0, 0, 0, 0, 0, 0, 0, 0, 0, 0, 0, 0, 0, 1]

/-- A side whose queue holds `F1` and `F2`, in the slots 15 and 0. -/
def holdsTwo : SideState :=
  { fresh with qmem := (fresh.qmem.setIfInBounds 15 frame1).setIfInBounds 0 frame2, qhead := 15, qtail := 1, qcnt := 2 }

/-- A side whose queue holds `n` frames, the oldest in slot 0. -/
def holds (n : Nat) : SideState := { fresh with qtail := BitVec.ofNat 4 n, qcnt := BitVec.ofNat 5 n }

/-! ## Well-formedness: ill-formed terms are refused -/

theorem test_wf_side_without_cause : Instr.wf (.enable 0b1000) = false := by decide

theorem test_wf_cause_five : Instr.wf (.enable 0b0101) = false ∧ Instr.wf (.enable 0b1101) = false := by decide

theorem test_wf_causes_six_and_seven :
    Instr.wf (.enable 0b0110) = false ∧ Instr.wf (.enable 0b1110) = false ∧
    Instr.wf (.enable 0b0111) = false ∧ Instr.wf (.enable 0b1111) = false := by decide

/-! ## Decoding: words written field by field, `rsv s opc A B` (30_encoding.md R81, R84) -/

theorem test_decode_reset : decodeWord 0b000_0_0000_00000000_00000000 = .ok .reset := by decide

theorem test_decode_enable_ok : decodeWord 0b000_0_0001_00000000_00000000 = .ok (.enable 0) := by decide

/-- `ENABLE rxst 1`. -/
theorem test_decode_enable_rxst : decodeWord 0b000_0_0001_00000000_00001100 = .ok (.enable 0b1100) := by decide

/-- `DMAWR 1, 127, 0x00` and `DMAWR 0, 0, 0x48`. -/
theorem test_decode_dmawr :
    decodeWord 0b000_1_0010_01111111_00000000 = .ok (.dmawr .s1 127 0) ∧
    decodeWord 0b000_0_0010_00000000_01001000 = .ok (.dmawr .s0 0 0x48) := by decide

theorem test_decode_rxhalf : decodeWord 0b000_1_0011_00000000_00000000 = .ok (.rxhalf .s1) := by decide

theorem test_decode_rxfull : decodeWord 0b000_0_0100_00000000_00000000 = .ok (.rxfull .s0) := by decide

theorem test_decode_txdone : decodeWord 0b000_0_0101_00000000_00000000 = .ok (.txdone .s0) := by decide

theorem test_decode_ntake : decodeWord 0b000_1_1000_00000000_00000000 = .ok (.ntake .s1) := by decide

theorem test_decode_rstep : decodeWord 0b000_0_1001_00000000_00000000 = .ok (.rstep .s0) := by decide

theorem test_decode_txissue :
    decodeWord 0b000_0_1010_00000000_00000000 = .ok (.txissue .s0 .ok) ∧
    decodeWord 0b000_1_1010_00000000_00000001 = .ok (.txissue .s1 .error) := by decide

theorem test_decode_txdefer : decodeWord 0b000_0_1011_00000000_00000000 = .ok (.txdefer .s0) := by decide

/-- The illegal words of 95_test_vectors.md section 2.1, each with its reason. -/
theorem test_decode_illegal :
    decodeWord 0x800000 = .error .reservedBits ∧ decodeWord 0x230000 = .error .reservedBits ∧
    decodeWord 0x170000 = .error .noSuchOpcode ∧ decodeWord 0x0C0000 = .error .noSuchOpcode ∧
    decodeWord 0x100000 = .error .sideNotZero ∧ decodeWord 0x110000 = .error .sideNotZero ∧
    decodeWord 0x090100 = .error .fieldANotZero ∧ decodeWord 0x030001 = .error .fieldBNotZero ∧
    decodeWord 0x0A0002 = .error .fieldBNotZero ∧ decodeWord 0x010010 = .error .fieldBNotZero ∧
    decodeWord 0x010005 = .error .resultCodeNotLegal ∧ decodeWord 0x010008 = .error .resultCodeNotLegal := by decide

/-- Stored most significant byte first (30_encoding.md R83, R92): `12 FF 7F`. -/
theorem test_decode_bytes : decode [0x12, 0xFF, 0x7F, 0x03] = .ok (.dmawr .s1 255 0x7F, [0x03]) := by decide

/-- A table word is decoded and presented as the next operation. -/
theorem test_table_word :
    decodeTableWord 24 0x1A0001 = some (.txissue .s1 .error) ∧
    goesTo (step (State.reset.withFetchWord 24 0x01000C)) (fun t => t.fcause = .rxst && t.trace = []) = true := by
  decide

/-! ## Trace text (30_encoding.md R90, R91) -/

/-- The examples of R90, one with a comment and one with a character. -/
theorem test_text_lines :
    parseLine "DMAWR 0, 2, 0x00".toList = some [.dmawr .s0 2 0] ∧
    parseLine "DMAWR 0, 0, 'H' ; a comment".toList = some [.dmawr .s0 0 0x48] ∧
    parseLine "ENABLE rxst 1".toList = some [.enable 0b1100] ∧
    parseLine "TXISSUE 1, err".toList = some [.txissue .s1 .error] ∧
    parseLine "TXISSUE 2, ok".toList = none := by decide

/-- The choices of log 15: a quoted semicolon is the character, and a line feed left in a line belongs to the word. -/
theorem test_text_choices :
    parseLine "DMAWR 0, 0, ';'".toList = some [.dmawr .s0 0 0x3B] ∧ parseLine "RESET\n".toList = none := by decide

/-- `FILLN 0, 0, 1` writes `01 02 .. 80` (95_test_vectors.md V5); `RXEVT 1, 1` is `RXFULL 1`. -/
theorem test_text_pseudo :
    (Pseudo.filln .s0 0 1).expand.getLast? = some (.dmawr .s0 127 0x80) ∧
    parseLine "RXEVT 1, 1".toList = some [.rxfull .s1] ∧
    parseLine "SEND 1".toList = some [.txissue .s1 .ok, .txdone .s1] := by decide

/-! ## Single steps against 95_test_vectors.md -/

/-- NT1. -/
theorem test_dmawr_nt1 :
    goesTo (exec (.dmawr .s0 2 0) (running { fresh with rxbuf := [(2, 0x55)] } fresh))
      (fun t => t.ctx0.rxbuf = [(2, 0)] && !t.ctx0.nv) = true := by decide

/-- NT2: the top address of side 1; side 0 is untouched. -/
theorem test_dmawr_nt2 :
    goesTo (exec (.dmawr .s1 255 0x7F) (running fresh fresh))
      (fun t => rxRead t .s1 255 = 0x7F && t.ctx0 = fresh) = true := by decide

/-- NT7: a later half-complete overwrites the value 1. -/
theorem test_rxhalf_nt7 :
    goesTo (exec (.rxhalf .s1) (running fresh { fresh with nv := true, nval := 1 }))
      (fun t => t.ctx1.nv && t.ctx1.nval = 0) = true := by decide

/-- NT14: before `ENABLE`. -/
theorem test_rxhalf_nt14 : refusedFor (exec (.rxhalf .s0) State.reset) .modeNotRun = true := by decide

/-- NT9: a post during a pass; the pass goes on. -/
theorem test_rxfull_nt9 :
    goesTo (exec (.rxfull .s0) (running (scanning 5 2 []) fresh))
      (fun t => t.ctx0.nv && t.ctx0.nval = 1 && t.ctx0.ph = .scan && t.ctx0.idx = 5) = true := by decide

/-- NT10. -/
theorem test_ntake_nt10 :
    goesTo (exec (.ntake .s0) (running { fresh with nv := true, nval := 1, idx := 9, cnt := 3, wb := frame2 } fresh))
      (fun t => !t.ctx0.nv && t.ctx0.ph = .scan && t.ctx0.sh = 1 && t.ctx0.idx = 0 && t.ctx0.cnt = 0 &&
        t.ctx0.wb = zeroFrame && t.ctx0.nval = 1) = true := by decide

/-- NT12: one thread per side. -/
theorem test_ntake_nt12 :
    refusedFor (exec (.ntake .s0) (running { fresh with nv := true, ph := .scan } fresh)) .passUnderWay = true := by decide

/-- RS6: the terminator fills the frame and the full queue drops it; the counter is reset all the same. -/
theorem test_rstep_rs6 :
    goesTo (exec (.rstep .s0) (running (scanning 20 15 [(19, 0x36), (20, 0)]) (holds 16)))
      (fun t => t.ctx0.wb[15] = 0 && t.ctx0.cnt = 0 && t.ctx0.idx = 21 && t.ctx0.ph = .scan && t.ctx1 = holds 16) = true := by
  decide

/-- RS11: the last byte, a terminator, appended and flushed into the last free slot. -/
theorem test_rstep_rs11 :
    goesTo (exec (.rstep .s0) (running { scanning 127 2 [(126, 0x54), (127, 0)] with wb := frame1 } (holds 15)))
      (fun t => t.ctx0.wb = frame1 && t.ctx0.cnt = 3 && t.ctx0.ph = .idle && t.ctx0.idx = 127 && t.ctx1.qcnt = 16 &&
        t.ctx1.qtail = 0 && t.ctx1.qmem[15] = frame1) = true := by decide

/-- T1. -/
theorem test_txissue_t1 :
    goesTo (exec (.txissue .s1 .ok) (running fresh holdsTwo))
      (fun t => qseq t.ctx1 = [frame2] && t.ctx1.txf && t.ctx1.txbuf = frame1 && t.ctx1.qhead = 0 &&
        t.outs = [.txStart .s1 frame1 16] && t.mode = .run) = true := by decide

/-- T11. -/
theorem test_txissue_t11 :
    goesTo (exec (.txissue .s1 .error) (running fresh holdsTwo))
      (fun t => qseq t.ctx1 = [frame2] && t.ctx1.txf && t.ctx1.txbuf = frame1 && t.outs = [.txStart .s1 frame1 16] &&
        fatalPort t = (1, 5, 1)) = true := by decide

/-- T3. -/
theorem test_txdefer_t3 :
    goesTo (exec (.txdefer .s1) (running fresh { holdsTwo with txf := true }))
      (fun t => t = running fresh { holdsTwo with txf := true }) = true := by decide

/-- T5. -/
theorem test_txdefer_t5 : refusedFor (exec (.txdefer .s1) (running fresh holdsTwo)) .flagClear = true := by decide

/-- T12: the flag of a side is cleared during its pass. -/
theorem test_txdone_t12 :
    goesTo (exec (.txdone .s0) (running { scanning 4 1 [] with txf := true } fresh))
      (fun t => !t.ctx0.txf && t.ctx0.ph = .scan && t.ctx0.idx = 4) = true := by decide

/-- T8. -/
theorem test_txdone_t8 :
    goesTo (exec (.txdone .s1) (running fresh holdsTwo)) (fun t => t = running fresh holdsTwo) = true := by decide

/-- Y2. -/
theorem test_enable_y2 :
    goesTo (exec (.enable 0) State.reset)
      (fun t => t.mode = .run && t.outs = [.rxStart .s0 256, .rxStart .s1 256] && fatalPort t = (0, 0, 0)) = true := by decide

/-- Y5: `ENABLE wset 1`. -/
theorem test_enable_y5 : goesTo (exec (.enable 0b1011) State.reset) (fun t => fatalPort t = (1, 3, 1)) = true := by decide

/-- Y9. -/
theorem test_reset_y9 :
    goesTo (exec .reset halted) (fun t => t.mode = .off && t.fcause = .none && t.fside = .s0) = true := by decide

/-- Y10: a pass under way, frames held and a flag set. -/
theorem test_reset_y10 :
    goesTo (exec .reset (running (scanning 40 3 []) { holds 7 with txf := true }))
      (fun t => t.ctx0.ph = .idle && t.ctx1.qcnt = 0 && !t.ctx1.txf && t.ctx1.qtail = 0) = true := by decide

/-- V12: `01 .. 10 00 58`, then zeros; the second frame begins with a zero and carries the first one's tail. -/
theorem test_frames_v12 :
    frames ([1, 2, 3, 4, 5, 6, 7, 8, 9, 10, 11, 12, 13, 14, 15, 16, 0, 0x58] ++ List.replicate 110 0) =
      [#v[1, 2, 3, 4, 5, 6, 7, 8, 9, 10, 11, 12, 13, 14, 15, 16],
       #v[0, 0x58, 0, 4, 5, 6, 7, 8, 9, 10, 11, 12, 13, 14, 15, 16]] := by decide

/-- V1: the corrected scenario S6. -/
theorem test_frames_v1 :
    frames ([0x41, 0x42, 0, 0x43, 0x44, 0, 0, 0x45, 0x46] ++ List.replicate 119 0) =
      [#v[0x41, 0x42, 0, 0x43, 0x44, 0, 0x45, 0x46, 0, 0, 0, 0, 0, 0, 0, 0]] := by decide

/-! ## Witnesses: concrete states and operands that meet every hypothesis of a statement -/

/-! ### Encoding and the step -/

theorem witness_decodeOfEncode :
    Instr.wf .reset = true ∧ Instr.wf (.enable 0b1100) = true ∧ Instr.wf (.dmawr .s1 255 255) = true ∧
    Instr.wf (.txissue .s1 .error) = true := by decide

theorem witness_encodeOfDecode :
    decodeWord 0x12FF7F = .ok (.dmawr .s1 255 0x7F) ∧ decodeWord 0x01000C = .ok (.enable 0b1100) := by decide

theorem witness_decoderAgrees :
    (∃ r ∈ opTable, r.mnemonic = "ENABLE" ∧ r.matchesWord 0x01000C = true ∧ fcLegal 0b1100 = true) ∧
    ∃ r ∈ opTable, r.mnemonic = "ENABLE" ∧ r.matchesWord 0x010005 = true ∧ fcLegal 0b0101 = false := by decide

theorem witness_traceLine : Instr.wf (.enable 0b1001) = true ∧ Instr.wf (.dmawr .s0 0 0x48) = true := by decide

theorem witness_stepRuns :
    Instr.wf (.rxhalf .s1) = true ∧
    ({ State.reset with trace := [0x13, 0, 0, 0x08] } : State).trace = encodeBytes (.rxhalf .s1) ++ [0x08] := by decide

theorem witness_stepRefuses :
    decodeWord 0x060000 = .error .noSuchOpcode ∧
    ({ State.reset with trace := [0x06, 0, 0] } : State).trace = bytesOfWord 0x060000 ++ [] ∧ State.reset.trace = [] ∧
    ({ State.reset with trace := [0x06] } : State).trace.length = 1 ∧
    ({ State.reset with trace := [0x06, 0] } : State).trace.length = 2 := by decide

/-! ### Enabling: a state in which each operation is enabled with the counters in range -/

/-- Side 0 idle with a notification and two frames, side 1 in a pass. -/
def busy : State := running { holdsTwo with nv := true } (scanning 127 15 [(126, 7), (127, 9)])

theorem busy_counts : ∀ s, (busy.side s).cnt.toNat < Config.L := by intro s; cases s <;> decide

theorem witness_enabled_host : Enabled .reset halted ∧ Enabled (.enable 0) State.reset ∧
    Enabled (.enable 0b1001) State.reset := ⟨trivial, rfl, rfl⟩

theorem witness_enabled_environment : Enabled (.dmawr .s0 255 0) busy ∧ Enabled (.rxhalf .s0) busy ∧
    Enabled (.rxfull .s1) busy ∧ Enabled (.txdone .s1) busy := ⟨rfl, rfl, rfl, rfl⟩

theorem witness_enabled_sequencer : Enabled (.ntake .s0) busy ∧ Enabled (.rstep .s1) busy ∧
    Enabled (.txissue .s0 .ok) busy ∧ Enabled (.txissue .s0 .error) busy ∧
    Enabled (.txdefer .s0) (running { holds 16 with txf := true } fresh) :=
  ⟨⟨rfl, rfl, rfl⟩, ⟨rfl, rfl⟩, ⟨rfl, rfl, by decide, rfl⟩, ⟨rfl, rfl, by decide, rfl⟩, ⟨rfl, rfl, by decide, rfl⟩⟩

theorem witness_refused : Instr.wf (.rstep .s0) = true ∧ ¬ Enabled (.rstep .s0) busy :=
  ⟨rfl, fun h => by have := h.2; revert this; decide⟩

/-- A count out of range, and a byte to append at index 0 and at index 1. -/
theorem witness_fault :
    exec (.rstep .s0) (running (scanning 0 16 [(0, 1)]) fresh) = .fault .workingBufferOverrun ∧
    exec (.rstep .s0) (running (scanning 1 16 [(0, 1), (1, 0)]) fresh) = .fault .workingBufferOverrun := ⟨rfl, rfl⟩

/-! ### Receive and notifier -/

theorem witness_dmaWrite : busy.mode = .run ∧ (Side.s1 ≠ Side.s0 ∨ (255 : RxAddr) ≠ 255) ∧
    (Side.s0 ≠ Side.s0 ∨ (0 : RxAddr) ≠ 255) := by decide

theorem witness_completionEvents : (running (scanning 127 0 []) fresh).mode = .run := rfl

theorem witness_notificationTake :
    busy.mode = .run ∧ (busy.side .s0).ph = .idle ∧ (busy.side .s0).nv = true := by decide

theorem witness_takenValue :
    (∃ τ, exec (.ntake .s0) (running { fresh with nv := true, nval := 0 } fresh) = .next τ) ∧
    ∃ τ, exec (.ntake .s0) (running { fresh with nv := true, nval := 1 } fresh) = .next τ := ⟨⟨_, rfl⟩, ⟨_, rfl⟩⟩

/-! ### The reassembler and the queue -/

/-- What the statements about one step of a pass assume. -/
def ScanReady (σ : State) (s : Side) : Prop :=
  σ.mode = .run ∧ (σ.side s).ph = .scan ∧ (σ.side s).cnt.toNat < Config.L

/-- The first index with a byte to append and with none. -/
theorem witness_scan_first :
    ScanReady (running (scanning 0 0 [(0, 1)]) fresh) .s0 ∧
    scanAppends (running (scanning 0 0 [(0, 1)]) fresh) .s0 = true ∧
    ScanReady (running (scanning 0 0 [(0, 0)]) fresh) .s0 ∧
    scanAppends (running (scanning 0 0 [(0, 0)]) fresh) .s0 = false := by
  unfold ScanReady; decide

/-- A terminator at index 1 and a second zero at index 2; the count at its bound. -/
theorem witness_scan_terminator :
    ScanReady (running (scanning 1 15 [(0, 1), (1, 0)]) fresh) .s0 ∧
    scanAppends (running (scanning 1 15 [(0, 1), (1, 0)]) fresh) .s0 = true ∧
    scanAppends (running (scanning 2 15 [(1, 0), (2, 0)]) fresh) .s0 = false := by
  unfold ScanReady; decide

/-- A flush at `c = L` below the last index, with one free slot and with none. -/
theorem witness_scan_flush_full :
    ScanReady (running (scanning 126 15 [(125, 0), (126, 9)]) (holds 15)) .s0 ∧
    scanFlushes (running (scanning 126 15 [(125, 0), (126, 9)]) (holds 15)) .s0 = true ∧
    qFree (running (scanning 126 15 [(125, 0), (126, 9)]) (holds 15)) .s1 = 1 ∧
    qFree (running (scanning 126 15 [(125, 0), (126, 9)]) (holds 16)) .s1 = 0 := by
  unfold ScanReady; decide

/-- The last index: a flush with `c = 1`, none with `c = 0`; the index before it: none with `c = 1`. -/
theorem witness_scan_last :
    ScanReady (running (scanning 127 0 [(126, 0), (127, 9)]) fresh) .s0 ∧
    scanFlushes (running (scanning 127 0 [(126, 0), (127, 9)]) fresh) .s0 = true ∧
    scanFlushes (running (scanning 127 0 [(126, 0), (127, 0)]) fresh) .s0 = false ∧
    scanFlushes (running (scanning 126 0 [(125, 0), (126, 9)]) fresh) .s0 = false := by
  unfold ScanReady; decide

theorem witness_scanLeavesTheRest :
    ∃ τ, exec (.rstep .s0) (running (scanning 127 15 [(126, 0), (127, 9)]) (holds 15)) = .next τ := ⟨_, rfl⟩

/-- A push with one free slot, the tail at its last slot; a pop of the only frame, the head at its last slot. -/
theorem witness_push_pop :
    1 ≤ qFree (running fresh (holds 15)) .s1 ∧ (holds 15).qtail = 15 ∧
    1 ≤ ((running fresh { fresh with qhead := 15, qcnt := 1 }).side .s1).qcnt.toNat := by decide

/-- The sides of the samples keep their part of the invariant. -/
theorem sample_sideInv : SideInv fresh ∧ SideInv holdsTwo ∧ SideInv (holds 15) ∧ SideInv (holds 16) ∧
    SideInv (scanning 127 15 [(126, 7), (127, 9)]) ∧ SideInv (scanning 127 0 [(126, 0), (127, 9)]) := by
  refine ⟨?_, ?_, ?_, ?_, ?_, ?_⟩ <;> exact ⟨by decide, by decide, by decide, by decide, by decide⟩

/-- A running state whose sides keep theirs meets the invariant. -/
theorem inv_of_running {c0 c1 : SideState} (h0 : SideInv c0) (h1 : SideInv c1) : Inv (running c0 c1) :=
  ⟨fun s => by cases s; exact h0; exact h1, fun h => (by cases h), fun _ => ⟨rfl, rfl⟩⟩

/-- Each clause of the queue's refinement: reset, enable, a pop, a push, and another operation. -/
theorem witness_queueRefines :
    Inv busy ∧ (∃ τ, exec .reset busy = .next τ) ∧ (∃ τ, exec (.txissue .s0 .ok) busy = .next τ) ∧
    (∃ τ, exec (.txdone .s0) busy = .next τ) ∧
    Inv (running (holds 15) (scanning 127 0 [(126, 0), (127, 9)])) ∧
    (∃ τ, exec (.rstep (peer .s0)) (running (holds 15) (scanning 127 0 [(126, 0), (127, 9)])) = .next τ) ∧
    Inv State.reset ∧ ∃ τ, exec (.enable 0) State.reset = .next τ :=
  ⟨inv_of_running ⟨by decide, by decide, by decide, by decide, by decide⟩ sample_sideInv.2.2.2.2.1, ⟨_, rfl⟩, ⟨_, rfl⟩,
    ⟨_, rfl⟩, inv_of_running sample_sideInv.2.2.1 sample_sideInv.2.2.2.2.2, ⟨_, rfl⟩,
    ⟨fun s => by cases s <;> exact ⟨by decide, by decide, by decide, by decide, by decide⟩,
      fun _ s => by cases s <;> exact ⟨rfl, rfl, rfl, rfl⟩, fun _ => ⟨rfl, rfl⟩⟩, ⟨_, rfl⟩⟩

theorem witness_fullQueue :
    ScanReady (running (scanning 127 15 [(126, 7), (127, 9)]) (holds 16)) .s0 ∧
    SideInv ((running (scanning 127 15 [(126, 7), (127, 9)]) (holds 16)).side (peer .s0)) ∧
    qFree (running (scanning 127 15 [(126, 7), (127, 9)]) (holds 16)) (peer .s0) = 0 :=
  ⟨⟨rfl, rfl, by decide⟩, sample_sideInv.2.2.2.1, rfl⟩

theorem witness_onlyThePeersReassembler :
    (∃ τ, exec (.txissue .s0 .ok) busy = .next τ) ∧ Instr.txissue .s0 .ok ≠ .rstep (peer .s0) ∧
    ∃ τ, exec (.rstep .s1) busy = .next τ := ⟨⟨_, rfl⟩, by decide, ⟨_, rfl⟩⟩

/-! ### Transmit flow -/

theorem witness_transmitIssue :
    (running fresh holdsTwo).mode = .run ∧ ((running fresh holdsTwo).side .s1).ph = .idle ∧
    1 ≤ ((running fresh holdsTwo).side .s1).qcnt.toNat ∧ ((running fresh holdsTwo).side .s1).txf = false := by decide

theorem witness_defer :
    ((running fresh { holds 1 with txf := true }).mode = .run ∧
      ((running fresh { holds 1 with txf := true }).side .s1).ph = .idle ∧
      1 ≤ ((running fresh { holds 1 with txf := true }).side .s1).qcnt.toNat ∧
      ((running fresh { holds 1 with txf := true }).side .s1).txf = true) ∧
    ¬ (1 ≤ ((running fresh { holds 0 with txf := true }).side .s1).qcnt.toNat) := by decide

theorem witness_transmitDone :
    (running fresh holdsTwo).mode = .run ∧ ((running fresh holdsTwo).side .s1).txf = false ∧ halted.mode ≠ .run := by decide

/-- A flag is set and another operation runs. -/
theorem witness_oneTransmission :
    ((running fresh { holds 1 with txf := true }).side .s1).txf = true ∧
    (∃ τ, exec (.txdefer .s1) (running fresh { holds 1 with txf := true }) = .next τ) ∧
    ∃ τ, exec (.rxhalf .s1) (running fresh { holds 1 with txf := true }) = .next τ := ⟨rfl, ⟨_, rfl⟩, ⟨_, rfl⟩⟩

/-! ### Enable, reset, fatal -/

theorem witness_off : State.reset.mode = .off ∧ Instr.rxhalf .s0 ≠ .reset ∧ ∀ fc, Instr.rxhalf .s0 ≠ .enable fc := by
  decide

theorem witness_fatal : halted.mode = .fatal ∧ Instr.wf (.enable 0) = true ∧ Instr.enable 0 ≠ .reset := by decide

theorem witness_fatalOnly :
    (∃ τ, exec (.enable 0b0001) State.reset = .next τ ∧ τ.mode = .fatal) ∧
    (∃ τ, exec (.enable 0b1100) State.reset = .next τ ∧ τ.mode = .fatal) ∧
    ∃ τ, exec (.txissue .s0 .error) busy = .next τ ∧ τ.mode = .fatal := ⟨⟨_, rfl, rfl⟩, ⟨_, rfl, rfl⟩, ⟨_, rfl, rfl⟩⟩

theorem witness_modeMoves :
    (∃ τ, exec .reset halted = .next τ) ∧ (∃ τ, exec (.enable 0) State.reset = .next τ ∧ τ.mode = .run) ∧
    ∃ τ, exec (.txissue .s0 .ok) busy = .next τ ∧ τ.mode = .run := ⟨⟨_, rfl⟩, ⟨_, rfl, rfl⟩, ⟨_, rfl, rfl⟩⟩

/-! ### Frames and invariants -/

theorem witness_onlyDma :
    (∃ τ, exec (.dmawr .s0 254 1) busy = .next τ) ∧ Instr.dmawr .s0 254 1 ≠ .reset ∧
    ∀ d, Instr.dmawr .s0 254 1 ≠ .dmawr .s0 255 d := ⟨⟨_, rfl⟩, by decide, by decide⟩

/-- An operation of each kind changes the elements it may write. -/
theorem witness_elements :
    goesTo (exec (.rxfull .s0) (running fresh fresh)) (fun t => t.ctx0.nv && t.ctx0.nval = 1) = true ∧
    goesTo (exec (.rstep .s1) busy) (fun t =>
      t.ctx0.qmem ≠ busy.ctx0.qmem && t.ctx0.qtail = 2 && t.ctx0.qcnt = 3 && t.ctx1.ph = .idle && t.ctx1.cnt = 0) = true ∧
    goesTo (exec (.txissue .s0 .ok) busy) (fun t =>
      t.ctx0.qhead = 0 && t.ctx0.txf && t.ctx0.txbuf ≠ busy.ctx0.txbuf && t.outs ≠ busy.outs) = true := by decide

theorem witness_invariant :
    Inv { busy with trace := [0x19, 0, 0] } ∧ ∃ τ, step { busy with trace := [0x19, 0, 0] } = .next τ :=
  ⟨⟨fun s => by rw [withTrace_side]; exact witness_queueRefines.1.sides s, fun h => (by cases h), fun _ => ⟨rfl, rfl⟩⟩,
    ⟨_, rfl⟩⟩

/-! ### Whole-machine rules -/

theorem witness_nothingCutsAPass :
    busy.mode = .run ∧ (busy.side .s1).ph = .scan ∧ (∃ τ, exec (.txissue .s0 .error) busy = .next τ) ∧
    ∃ τ, exec (.rxfull .s1) busy = .next τ := ⟨rfl, rfl, ⟨_, rfl⟩, ⟨_, rfl⟩⟩

theorem witness_pendingNotification :
    busy.mode = .run ∧ (busy.side .s0).nv = true ∧ (∃ τ, exec (.txdone .s0) busy = .next τ) ∧
    ∃ τ, exec (.rxfull .s0) busy = .next τ := ⟨rfl, rfl, ⟨_, rfl⟩, ⟨_, rfl⟩⟩

theorem witness_eitherWakeSource :
    (busy.mode = .run ∧ (busy.side .s0).ph = .idle ∧ (busy.side .s0).nv = true ∧ 1 ≤ (busy.side .s0).qcnt.toNat ∧
      (busy.side .s0).txf = false) ∧
    ((running { holds 1 with nv := true, txf := true } fresh).side .s0).txf = true := by decide

/-- Side 0 in a pass, side 1 in one or idle with work: every kind of independent event and a step of the pass are both
enabled. -/
theorem witness_scanCommutes :
    (∃ τ, exec (.rstep .s0) (running (scanning 1 3 [(0, 5), (1, 0)]) (scanning 127 15 [(126, 7), (127, 9)])) = .next τ) ∧
    (∃ τ, exec (.rstep (peer .s0)) (running (scanning 1 3 [(0, 5), (1, 0)]) (scanning 127 15 [(126, 7), (127, 9)])) =
      .next τ) ∧
    (∃ τ, exec (.rstep .s0) (running (scanning 1 3 [(0, 5), (1, 0)]) { holds 1 with nv := true, txf := true }) = .next τ) ∧
    (∃ τ, exec (.ntake (peer .s0)) (running (scanning 1 3 [(0, 5), (1, 0)]) { holds 1 with nv := true, txf := true }) =
      .next τ) ∧
    (∃ τ, exec (.txdefer (peer .s0)) (running (scanning 1 3 [(0, 5), (1, 0)]) { holds 1 with nv := true, txf := true }) =
      .next τ) ∧
    (∃ τ, exec (.txdone .s0) (running (scanning 1 3 [(0, 5), (1, 0)]) fresh) = .next τ) ∧
    (∃ τ, exec (.dmawr .s0 128 9) (running (scanning 1 3 [(0, 5), (1, 0)]) fresh) = .next τ) ∧
    halfOf 128 ≠ ((running (scanning 1 3 [(0, 5), (1, 0)]) fresh).side .s0).sh :=
  ⟨⟨_, rfl⟩, ⟨_, rfl⟩, ⟨_, rfl⟩, ⟨_, rfl⟩, ⟨_, rfl⟩, ⟨_, rfl⟩, ⟨_, rfl⟩, by decide⟩

/-- The cells of `n` addresses from `k` on, all zero. -/
def zeroCells (k : Nat) : Nat → List Host.Cell
  | 0 => []
  | n + 1 => (k, 0) :: zeroCells (k + 1) n

/-- A receive buffer every byte of which has been written, with 0. -/
def allZero : List Host.Cell := zeroCells 0 256

theorem memRead_zeroCells (n k a : Nat) (hk : k ≤ a) (ha : a < k + n) : memRead? (zeroCells k n) a = some 0 := by
  induction n generalizing k with
  | zero => omega
  | succ n ih =>
    unfold zeroCells memRead?
    split
    · rfl
    · exact ih (k + 1) (by omega) (by omega)

theorem memRead_allZero (b : RxAddr) : memRead? allZero b.toNat = some 0 :=
  memRead_zeroCells 256 0 b.toNat (Nat.zero_le _) (by simpa using b.isLt)

theorem witness_symmetric :
    (∀ b : RxAddr, (memRead? ((running (scanning 0 0 allZero) fresh).side .s0).rxbuf b.toNat).isSome = true) ∧
    (∃ τ, exec (.rstep .s0) (running (scanning 0 0 allZero) fresh) = .next τ) ∧
    (∃ τ, exec (.txissue .s0 .error) busy = .next τ) ∧ ∃ τ, exec (.ntake .s0) busy = .next τ :=
  ⟨fun b => by
    show (memRead? allZero b.toNat).isSome = true
    rw [memRead_allZero]; rfl, ⟨_, rfl⟩, ⟨_, rfl⟩, ⟨_, rfl⟩⟩

/-! ### A pass over a half of zeros -/

/-- A half of zeros has been received and announced on side 0. -/
def zeroPosted : State := running { fresh with nv := true, rxbuf := allZero } fresh

/-- The pass over it at index `k`. -/
def zeroScan (k : Nat) : State := running (scanning (BitVec.ofNat 7 k) 0 allZero) fresh

/-- The pass done. -/
def zeroDone : State := running { scanning 127 0 allZero with ph := .idle } fresh

theorem zero_rxRead (k : Nat) (a : RxAddr) : rxRead (zeroScan k) .s0 a = 0 := by
  show (memRead? allZero a.toNat).getD _ = 0
  rw [memRead_allZero]; rfl

/-- A byte of the zero window is not appended. -/
theorem zero_skips (k : Nat) : scanAppends (zeroScan k) .s0 = false := by
  rw [← Bool.not_eq_true, scanAppends_iff]
  simp [zero_rxRead]

theorem zero_scan (k : Nat) :
    exec (.rstep .s0) (zeroScan k) = .next (((zeroScan k).setSide .s0
      (if isLast (BitVec.ofNat 7 k) then { (zeroScan k).side .s0 with ph := .idle }
        else { (zeroScan k).side .s0 with idx := BitVec.ofNat 7 k + 1 })).setSide .s1 fresh) := by
  rw [execRstep_of_scan (zeroScan k) .s0 rfl rfl (show (0 : BitVec 5).toNat < Config.L by decide), scanStep_eq]
  have hc : cntAfter (zeroScan k) .s0 = 0 := by unfold cntAfter; rw [zero_skips]; rfl
  have hw : wbAfter (zeroScan k) .s0 = zeroFrame := by unfold wbAfter; rw [zero_skips]; rfl
  have hf : scanFlushes (zeroScan k) .s0 = false := by
    unfold scanFlushes; rw [hc]; simp [flushTest, Config.L]
  have ho : scanOwn (zeroScan k) .s0 = if isLast (BitVec.ofNat 7 k) then { (zeroScan k).side .s0 with ph := .idle }
      else { (zeroScan k).side .s0 with idx := BitVec.ofNat 7 k + 1 } := by
    unfold scanOwn; rw [hc, hw]; rfl
  have hp : scanPeer (zeroScan k) .s0 = fresh := by unfold scanPeer; rw [hf]; rfl
  rw [ho, hp]; rfl

theorem zero_step (k : Nat) (hk : k < 127) : exec (.rstep .s0) (zeroScan k) = .next (zeroScan (k + 1)) := by
  have hl : isLast (BitVec.ofNat 7 k) = false := by
    unfold isLast; simp [Config.H]; omega
  have hi : BitVec.ofNat 7 k + 1 = BitVec.ofNat 7 (k + 1) := by
    apply BitVec.eq_of_toNat_eq; rw [BitVec.toNat_add]; simp
  rw [zero_scan, hl, hi]; rfl

theorem zero_last : exec (.rstep .s0) (zeroScan 127) = .next zeroDone := by
  rw [zero_scan]; rfl

theorem zero_take : exec (.ntake .s0) zeroPosted = .next (zeroScan 0) := rfl

theorem zero_accept (j : Nat) (hj : j ≤ 127) :
    accept (List.replicate (j + 1) (.rstep .s0)) (zeroScan (127 - j)) = some zeroDone := by
  induction j with
  | zero => exact accept_cons zero_last
  | succ j ih =>
    have e : 127 - (j + 1) + 1 = 127 - j := by omega
    rw [List.replicate_succ, accept_cons (zero_step _ (by omega)), e]
    exact ih (by omega)

theorem witness_wholePass :
    zeroPosted.mode = .run ∧ (zeroPosted.side .s0).ph = .idle ∧ (zeroPosted.side .s0).nv = true ∧
    SideInv (zeroPosted.side (peer .s0)) := ⟨rfl, rfl, rfl, sample_sideInv.1⟩

/-- A clean pass: the post, the take and the `H` steps, `n` of them left after the first. -/
def cleanSegment (n : Nat) : List Instr := .rxhalf .s0 :: ([] ++ .ntake .s0 :: List.replicate (n + 1) (.rstep .s0))

theorem mem_cleanSegment {n : Nat} {i : Instr} (h : i ∈ cleanSegment n) :
    i = .rxhalf .s0 ∨ i = .ntake .s0 ∨ i = .rstep .s0 := by
  simp only [cleanSegment, List.nil_append, List.mem_cons, List.mem_replicate] at h
  tauto

theorem cleanSegment_clean (n : Nat) (hn : n + 1 = Config.H) : CleanPass .s0 0 (cleanSegment n) := by
  refine ⟨[], List.replicate (n + 1) (.rstep .s0), rfl, by simp, by rw [List.count_replicate_self, hn],
    by simp [List.getLast?_replicate], fun i hi => ?_⟩
  rcases mem_cleanSegment hi with rfl | rfl | rfl <;> decide

theorem cleanSegment_accepted (n : Nat) (hn : n = 127) : accept (cleanSegment n) zeroPosted = some zeroDone := by
  unfold cleanSegment
  rw [accept_cons (show exec (.rxhalf .s0) zeroPosted = .next zeroPosted from rfl), List.nil_append, accept_cons zero_take]
  have := zero_accept n (by omega)
  rwa [show 127 - n = 0 by omega] at this

theorem witness_cleanPass :
    (zeroPosted.side .s0).ph = .idle ∧ SideInv (zeroPosted.side (peer .s0)) ∧ CleanPass .s0 0 (cleanSegment 127) ∧
    (∀ e, Instr.txissue (peer .s0) e ∉ cleanSegment 127) ∧ ∃ τ, accept (cleanSegment 127) zeroPosted = some τ :=
  ⟨rfl, sample_sideInv.1, cleanSegment_clean _ rfl,
    fun e h => (by rcases mem_cleanSegment h with h | h | h <;> cases h), zeroDone, cleanSegment_accepted _ rfl⟩

/-! ### Windows -/

/-- A window of 18 kept bytes: a full frame and a short one. -/
def sampleWindow : List Byte := [1, 2, 3, 4, 5, 6, 7, 8, 9, 10, 11, 12, 13, 14, 15, 16, 17] ++ List.replicate 111 0

theorem witness_window : sampleWindow.length = Config.H ∧ (List.replicate 128 (0 : Byte)).length = Config.H :=
  ⟨rfl, rfl⟩

/-- The second flush of the sample is short, so both clauses about tails have their case: counts 16 and 2; and a window
whose first flush is short. -/
theorem witness_staleTail :
    (flushes sampleWindow).map Prod.snd = [16, 2] ∧
    (flushes (0x48 :: List.replicate 127 0)).map Prod.snd = [2] := by decide

/-! ### Pace and progress -/

theorem witness_keepingPace :
    ((running fresh fresh).side .s0).nv = false ∧
    KeepsPace .s0 ([.rxhalf .s0, .ntake .s0] ++ .rxfull .s0 :: []) ∧
    (∃ τ, accept [.rxhalf .s0, .ntake .s0] (running fresh fresh) = some τ) ∧ isPost .s0 (.rxfull .s0) = true :=
  ⟨rfl, by unfold KeepsPace; decide, ⟨_, rfl⟩, rfl⟩

/-- Two transfers with a completion each keep the contract; the second completion has its own `TXISSUE`. -/
theorem witness_transmitContract :
    txContract .s1 ([.txissue .s1 .ok] ++ .txdone .s1 :: ([.txissue .s1 .ok] ++ .txdone .s1 :: []))
      (running fresh holdsTwo) = true := by decide

/-- R222: a second completion without a `TXISSUE`, one with a clear flag, and one after `TXISSUE s, err` break the contract;
R13: so does any environment operation that is refused. -/
theorem test_txContract_broken :
    txContract .s1 [.txissue .s1 .ok, .txdone .s1, .txdone .s1] (running fresh holdsTwo) = false ∧
    txContract .s1 [.txdone .s1] (running fresh holdsTwo) = false ∧
    txContract .s1 [.txissue .s1 .error, .txdone .s1] (running fresh holdsTwo) = false ∧
    environmentAccepted [.txissue .s1 .error, .rxhalf .s0] (running fresh holdsTwo) = false ∧
    environmentAccepted [.txissue .s1 .ok, .txissue .s1 .ok, .rxhalf .s0] (running fresh holdsTwo) = true := by decide

/-- A fair execution: the posted half of zeros is taken and scanned, then only transmit-complete events come. -/
def fairState (n : Nat) : State := if n = 0 then zeroPosted else if n ≤ 128 then zeroScan (n - 1) else zeroDone

/-- Its operations. -/
def fairOp (n : Nat) : Instr := if n = 0 then .ntake .s0 else if n ≤ 128 then .rstep .s0 else .txdone .s0

theorem fair_execution : IsExecution fairState fairOp := by
  intro n
  rcases Nat.lt_trichotomy n 128 with h | h | h
  · rcases Nat.eq_zero_or_pos n with h0 | h0
    · subst h0; exact zero_take
    · have hs := zero_step (n - 1) (by omega)
      have e : n - 1 + 1 = n := by omega
      have h1 : fairState (n + 1) = zeroScan n := by
        unfold fairState; rw [if_neg (by omega), if_pos (by omega)]; rfl
      have h2 : fairState n = zeroScan (n - 1) := by
        unfold fairState; rw [if_neg (by omega), if_pos (by omega)]
      have h3 : fairOp n = .rstep .s0 := by unfold fairOp; rw [if_neg (by omega), if_pos (by omega)]
      rw [h1, h2, h3, hs, e]
  · subst h; exact zero_last
  · have h1 : fairState (n + 1) = zeroDone := by
      unfold fairState; rw [if_neg (by omega), if_neg (by omega)]
    have h2 : fairState n = zeroDone := by
      unfold fairState; rw [if_neg (by omega), if_neg (by omega)]
    have h3 : fairOp n = .txdone .s0 := by unfold fairOp; rw [if_neg (by omega), if_neg (by omega)]
    rw [h1, h2, h3]; rfl

theorem zeroDone_blocked (s : Side) :
    ¬ Enabled (.ntake s) zeroDone ∧ ¬ Enabled (.rstep s) zeroDone ∧ ∀ e, ¬ Enabled (.txissue s e) zeroDone := by
  cases s
  · exact ⟨fun h => (by cases h.2.2), fun h => (by cases h.2), fun e h => absurd h.2.2.1 (by decide)⟩
  · exact ⟨fun h => (by cases h.2.2), fun h => (by cases h.2), fun e h => absurd h.2.2.1 (by decide)⟩

theorem fair_fair : Fair fairState fairOp := by
  intro s
  have late : ∀ n, fairState (n + 129) = zeroDone := by
    intro n; unfold fairState; rw [if_neg (by omega), if_neg (by omega)]
  have b := zeroDone_blocked s
  refine ⟨fun n h => ?_, fun n h => ?_, fun n h => ?_⟩
  · obtain ⟨i, rfl, he⟩ := h (n + 129) (by omega)
    rw [late] at he; exact absurd he b.1
  · obtain ⟨i, rfl, he⟩ := h (n + 129) (by omega)
    rw [late] at he; exact absurd he b.2.1
  · obtain ⟨i, ⟨e, rfl⟩, he⟩ := h (n + 129) (by omega)
    rw [late] at he; exact absurd he (b.2.2 e)

theorem fair_running (m : Nat) : (fairState m).mode = .run := by
  unfold fairState; split_ifs <;> rfl

theorem witness_everyNotification :
    IsExecution fairState fairOp ∧ Fair fairState fairOp ∧ (∀ m, (fairState m).mode = .run) ∧
    ((fairState 0).side .s0).nv = true := ⟨fair_execution, fair_fair, fair_running, rfl⟩

end Tests
end Sys2Proof
end

section
/-! The notifier slot: what a post and a take do to it (40_receive_and_notifier.md R100 to R102). -/

namespace Sys2Proof
namespace Machine

variable (σ : State) (s : Side) (v w : Half)

/-! ## Rules of the two operations -/

@[simp] theorem nPost_side_same :
    (nPost σ s v).side s = { σ.side s with nv := true, nval := v } := by
  rw [nPost_eq, setSide_side_same]

@[simp] theorem nPost_side_peer : (nPost σ s v).side (peer s) = σ.side (peer s) := by
  rw [nPost_eq, setSide_side_peer]

/-- A later post leaves no trace of an earlier one. -/
@[simp] theorem nPost_nPost : nPost (nPost σ s w) s v = nPost σ s v := by
  simp only [nPost_eq, setSide_side_same, setSide_setSide]

@[simp] theorem nTakeVal_fst : (nTakeVal σ s).1 = (σ.side s).nval := rfl

theorem nTakeVal_snd : (nTakeVal σ s).2 = σ.setSide s { σ.side s with nv := false } := rfl

@[simp] theorem nTakeVal_snd_side_same :
    (nTakeVal σ s).2.side s = { σ.side s with nv := false } := by
  rw [nTakeVal_snd, setSide_side_same]

/-- A take answers the value of the post before it. -/
theorem nTakeVal_nPost_fst : (nTakeVal (nPost σ s v) s).1 = v := by
  rw [nTakeVal_fst, nPost_side_same]

/-! ## The obligations -/

/-- Settles O14, from what a post does to each side and from two posts being the second alone. -/
theorem postOverwritesTheSlot : Obligations.PostOverwritesTheSlot := by
  intro σ s v w
  have hown := nPost_side_same σ s v
  exact ⟨congrArg SideState.nv hown, congrArg SideState.nval hown, nPost_side_peer σ s v, nPost_nPost σ s v w⟩

/-- Settles O15: the take reads the slot's value, and after two posts that is the second's. -/
theorem takeReturnsTheLatestPost : Obligations.TakeReturnsTheLatestPost := by
  intro σ s v w
  have hown := nTakeVal_snd_side_same σ s
  exact ⟨nTakeVal_fst σ s, congrArg SideState.nv hown, nTakeVal_nPost_fst (nPost σ s v) s w⟩

end Machine
end Sys2Proof
end

section
/-! The reassembler's step (41_reassembler.md R122 to R125): the append, the flush and the count, each as one rule. -/

namespace Sys2Proof
namespace Machine

variable {σ : State} {s : Side}

/-! ## The append -/

theorem wbAfter_toList_of_appends (ha : scanAppends σ s = true) :
    (wbAfter σ s).toList =
      (σ.side s).wb.toList.set (σ.side s).cnt.toNat (rxRead σ s (windowAddr (σ.side s).sh (σ.side s).idx)) := by
  rw [wbAfter, if_pos ha, scanByte, Vector.toList_setIfInBounds]

theorem wbAfter_of_not_appends (ha : ¬ scanAppends σ s = true) : wbAfter σ s = (σ.side s).wb := if_neg ha

/-- The count after the append, as the statements give it: 1 more exactly where the byte is appended. -/
theorem eq_cntAfter_toNat {c : Nat} (hlt : (σ.side s).cnt.toNat < Config.L)
    (hc : (scanAppends σ s = true ∧ c = (σ.side s).cnt.toNat + 1) ∨
      (¬ scanAppends σ s = true ∧ c = (σ.side s).cnt.toNat)) : c = (cntAfter σ s).toNat := by
  rw [cntAfter_toNat σ s hlt]
  rcases hc with ⟨ha, rfl⟩ | ⟨ha, rfl⟩
  · rw [if_pos ha]
  · rw [if_neg ha, Nat.add_zero]

/-- With a byte appended the count left is the next one mod `L`: the reset at `L` is the wrap. -/
theorem cntLeft_toNat_of_appends (hlt : (σ.side s).cnt.toNat < Config.L) (ha : scanAppends σ s = true) :
    (cntLeft (cntAfter σ s)).toNat = ((σ.side s).cnt.toNat + 1) % Config.L := by
  rw [cntLeft_toNat, cntAfter_toNat σ s hlt, if_pos ha]
  split
  · next h => rw [h, Nat.mod_self]
  · exact (Nat.mod_eq_of_lt (by omega)).symm

/-- With no byte appended a count in range is left as it was. -/
theorem cntLeft_of_not_appends (hlt : (σ.side s).cnt.toNat < Config.L) (ha : ¬ scanAppends σ s = true) :
    cntLeft (cntAfter σ s) = (σ.side s).cnt := by
  rw [cntAfter, if_neg ha, cntLeft, if_neg (by omega)]

/-- With no byte appended a step changes only the phase and the index of its own side. -/
theorem scanOwn_of_not_appends (hlt : (σ.side s).cnt.toNat < Config.L) (ha : ¬ scanAppends σ s = true) :
    scanOwn σ s = { σ.side s with ph := (scanOwn σ s).ph, idx := (scanOwn σ s).idx } := by
  unfold scanOwn
  rw [wbAfter_of_not_appends ha, cntLeft_of_not_appends hlt ha]
  split <;> rfl

/-! ## The flush -/

/-- The flush condition of R124 on the count after the append. -/
theorem scanFlushes_iff : scanFlushes σ s = true ↔
    (cntAfter σ s).toNat = Config.L ∨ ((σ.side s).idx.toNat = Config.H - 1 ∧ 0 < (cntAfter σ s).toNat) := by
  simp only [scanFlushes, flushTest, isLast, Bool.or_eq_true, Bool.and_eq_true, decide_eq_true_eq]

/-- Writing a slot inside the ring is the checked write. -/
theorem slot_setIfInBounds_eq_set (m : QueueMem) {j : Nat} (f : Frame) (h : j < Config.M) :
    m.setIfInBounds j f = m.set j f h := by
  ext1 k hk
  rw [Vector.getElem_setIfInBounds, Vector.getElem_set]

/-- A flush with a free slot at the destination writes the whole working buffer to the tail slot. -/
theorem scanPeer_of_push (hf : scanFlushes σ s = true) (hq : 1 ≤ qFree σ (peer s)) :
    scanPeer σ s = { σ.side (peer s) with
      qmem := (σ.side (peer s)).qmem.set (σ.side (peer s)).qtail.toNat (wbAfter σ s) (σ.side (peer s)).qtail.isLt
      qtail := (σ.side (peer s)).qtail + 1
      qcnt := (σ.side (peer s)).qcnt + 1 } := by
  unfold qFree at hq
  rw [scanPeer, if_pos hf, flushed, if_pos (by omega), slot_setIfInBounds_eq_set]

/-- With no flush, or none that finds a free slot, the destination is as it was. -/
theorem scanPeer_of_not_push (h : ¬ (scanFlushes σ s = true ∧ 1 ≤ qFree σ (peer s))) :
    scanPeer σ s = σ.side (peer s) := by
  unfold scanPeer
  split
  · next hf =>
    have hq : ¬ 1 ≤ qFree σ (peer s) := fun hq => h ⟨hf, hq⟩
    unfold qFree at hq
    exact if_neg (by omega)
  · rfl

/-! ## The obligations on one step -/

/-- Settles O18: the step is taken, and its two cases are the append test's. -/
theorem scanAppendsByTheTerminatorRule : Obligations.ScanAppendsByTheTerminatorRule := by
  intro σ s hm hp hlt
  refine ⟨scanStep σ s, execRstep_of_scan σ s hm hp hlt, ?_⟩
  simp only [← scanAppends_iff, scanStep_side_same, scanOwn_wb, scanOwn_cnt]
  exact ⟨fun ha => ⟨wbAfter_toList_of_appends ha, cntLeft_toNat_of_appends hlt ha⟩,
    fun ha => ⟨wbAfter_of_not_appends ha, scanOwn_of_not_appends hlt ha⟩⟩

/-- Settles O19: the count of the statement is the model's count after the append, on which the model tests the flush. -/
theorem scanFlushesFullOrLast : Obligations.ScanFlushesFullOrLast := by
  intro σ s hm hp hlt
  refine ⟨scanStep σ s, execRstep_of_scan σ s hm hp hlt, ?_⟩
  simp only [← scanAppends_iff, scanStep_side_same, scanStep_side_peer, scanOwn_wb]
  refine ⟨wbAfter_toList_of_appends, wbAfter_of_not_appends, (scanStep_mode σ s).trans hm,
    scanStep_fcause σ s, scanStep_fside σ s, fun c hc => ?_⟩
  obtain rfl := eq_cntAfter_toNat hlt hc
  rw [← scanFlushes_iff]
  exact ⟨fun ⟨hf, hq⟩ => scanPeer_of_push hf hq, scanPeer_of_not_push⟩

/-- Settles O20: the count left is the count after the append, but 0 where that reached `L`. -/
theorem scanResetsTheCountAtL : Obligations.ScanResetsTheCountAtL := by
  intro σ s hm hp hlt
  refine ⟨scanStep σ s, execRstep_of_scan σ s hm hp hlt, ?_⟩
  simp only [← scanAppends_iff, scanStep_side_same, scanOwn_cnt]
  intro c hc
  obtain rfl := eq_cntAfter_toNat hlt hc
  exact ⟨fun hL => if_pos hL, fun hL => congrArg BitVec.toNat (if_neg hL)⟩

end Machine
end Sys2Proof
end

section
/-! What each operation does to the abstract sequence of a queue (10_state.md R26, 41_reassembler.md R136). -/

namespace Sys2Proof
namespace Machine

variable {σ : State} {s u : Side} {d : SideState}

/-- Replacing a side's context with its slots, head and count kept keeps every queue's sequence. -/
theorem qseq_setSide (hq : d.qmem = (σ.side s).qmem) (hh : d.qhead = (σ.side s).qhead)
    (hc : d.qcnt = (σ.side s).qcnt) : qseq ((σ.setSide s d).side u) = qseq (σ.side u) := by
  rcases eq_or_eq_peer s u with rfl | rfl
  · rw [setSide_side_same]; exact qseq_congr hq hh hc
  · rw [setSide_side_peer]

theorem qseq_rxWrite (a : RxAddr) (b : Byte) : qseq ((rxWrite σ s a b).side u) = qseq (σ.side u) :=
  qseq_setSide rfl rfl rfl

theorem qseq_nPost (v : Half) : qseq ((nPost σ s v).side u) = qseq (σ.side u) := qseq_setSide rfl rfl rfl

theorem qseq_clearFlag : qseq ((σ.setSide s { σ.side s with txf := false }).side u) = qseq (σ.side u) :=
  qseq_setSide rfl rfl rfl

theorem qseq_takeAndStart : qseq ((takeAndStart s σ).side u) = qseq (σ.side u) := by
  rw [takeAndStart_eq]; exact qseq_setSide rfl rfl rfl

theorem qseq_initialise : qseq ((initialise σ).side u) = [] := by
  rw [initialise_side]; exact qseq_nil rfl

theorem qseq_resetBlock : qseq ((resetBlock σ).side u) = [] := by
  rw [resetBlock_side]; exact qseq_nil rfl

/-- A step of the reassembler of a side keeps that side's own queue. -/
theorem qseq_scanStep_same : qseq ((scanStep σ s).side s) = qseq (σ.side s) := by
  rw [scanStep_side_same]
  apply qseq_congr <;> (unfold scanOwn; split <;> rfl)

@[simp] theorem afterAnswer_side (e : Answer) : (afterAnswer s e σ).side u = σ.side u := by
  cases e with
  | ok => rfl
  | error => exact raiseFatal_side σ u s .txst

/-- An enabled `TXISSUE s` takes the head off its own side's sequence, whatever the driver answers. -/
theorem qseq_startTransmit_same (h : 1 ≤ (σ.side s).qcnt.toNat) :
    qseq (σ.side s) = qHeadFrame (σ.side s) :: qseq ((startTransmit s σ).side s) := by
  rw [startTransmit_eq, output_side, setSide_side_same]
  exact qseq_pop h rfl rfl rfl

theorem qseq_startTransmit_peer : qseq ((startTransmit s σ).side (peer s)) = qseq (σ.side (peer s)) := by
  rw [startTransmit_eq, output_side, setSide_side_peer]

/-- An enabled `TXISSUE s` leaves in each queue the end part of what it held. -/
theorem qseq_startTransmit_suffix (h : 1 ≤ (σ.side s).qcnt.toNat) :
    qseq ((startTransmit s σ).side u) <:+ qseq (σ.side u) := by
  rcases eq_or_eq_peer s u with rfl | rfl
  · rw [qseq_startTransmit_same h]; exact List.suffix_cons _ _
  · rw [qseq_startTransmit_peer]

/-- Every accepted operation but the peer's `RSTEP` leaves in a queue the end part of what it held. -/
theorem exec_qseq_suffix {i : Instr} {τ : State} (h : exec i σ = .next τ) (hi : i ≠ .rstep (peer u)) :
    qseq (τ.side u) <:+ qseq (σ.side u) := by
  rcases exec_next_cases h with ⟨rfl, rfl⟩ | ⟨rfl, _, rfl⟩ | ⟨fc, rfl, _, _, _, rfl⟩ | ⟨s, a, b, rfl, _, rfl⟩ |
    ⟨s, rfl, _, rfl⟩ | ⟨s, rfl, _, rfl⟩ | ⟨s, rfl, _, rfl⟩ | ⟨s, rfl, _, rfl⟩ | ⟨s, rfl, _, _, rfl⟩ |
    ⟨s, e, rfl, ⟨_, _, hq, _⟩, rfl⟩ | ⟨s, rfl, _, rfl⟩
  · rw [qseq_resetBlock]; exact List.nil_suffix
  · rw [qseq_initialise]; exact List.nil_suffix
  · rw [raiseFatal_side]
  · rw [qseq_rxWrite]
  · rw [qseq_nPost]
  · rw [qseq_nPost]
  · rw [qseq_clearFlag]
  · rw [qseq_takeAndStart]
  · rcases eq_or_eq_peer u s with rfl | rfl
    · rw [qseq_scanStep_same]
    · exact absurd rfl hi
  · rw [afterAnswer_side]; exact qseq_startTransmit_suffix hq
  · exact List.suffix_rfl

/-- Settles O27: the case analysis over the operations, and `RSTEP`'s own side. -/
theorem onlyThePeersReassemblerProduces : Obligations.OnlyThePeersReassemblerProduces := by
  intro σ τ i u h
  refine ⟨exec_qseq_suffix h, ?_⟩
  rintro rfl
  obtain ⟨_, _, rfl⟩ := (execRstep_next_iff σ τ u).1 h
  exact qseq_scanStep_same

end Machine
end Sys2Proof
end

section
/-! The transfer queue (42_transfer_queue.md R142 to R146): a push, a pop, and what a step of the reassembler does to the
sequence of its destination. -/

namespace Sys2Proof
namespace Machine

variable {σ : State} {s t : Side} {f : Frame}

/-! ## The push -/

theorem one_le_qFree_iff : 1 ≤ qFree σ t ↔ (σ.side t).qcnt.toNat < Config.M := by
  unfold qFree; omega

@[simp] theorem qPush_side_same :
    (qPush σ t f).side t = { σ.side t with
      qmem := (σ.side t).qmem.setIfInBounds (σ.side t).qtail.toNat f
      qtail := (σ.side t).qtail + 1
      qcnt := (σ.side t).qcnt + 1 } := by
  rw [qPush, setSide_side_same]

theorem qPush_eq_setSide : qPush σ t f = σ.setSide t ((qPush σ t f).side t) := by
  rw [qPush_side_same, qPush]

/-- After a write to slot `i` that slot holds the frame written and every other what it held. -/
theorem slot_setIfInBounds (m : QueueMem) (i : Nat) (f : Frame) (j : Fin Config.M) :
    (m.setIfInBounds i f)[j] = if j.val = i then f else m[j] := by
  simp only [Fin.getElem_fin, Vector.getElem_setIfInBounds, eq_comm (a := i)]

/-- A queue pointer steps mod `M`. -/
theorem pointer_add_one_toNat (p : BitVec 4) : (p + 1).toNat = (p.toNat + 1) % Config.M := BitVec.toNat_add p 1

/-- A count with a free slot rises by 1 without wrapping. -/
theorem qcnt_add_one_toNat {n : BitVec 5} (h : n.toNat < Config.M) : (n + 1).toNat = n.toNat + 1 := by
  simp only [Config.M] at h
  bv_omega

/-- A count of a frame held falls by 1 without wrapping. -/
theorem qcnt_sub_one_toNat {n : BitVec 5} (h : 1 ≤ n.toNat) : (n - 1).toNat = n.toNat - 1 := by
  bv_omega

/-- A push with a free slot adds its frame at the end of the sequence. -/
theorem qseq_qPush (hi : SideInv (σ.side t)) (h : 1 ≤ qFree σ t) :
    qseq ((qPush σ t f).side t) = qseq (σ.side t) ++ [f] := by
  rw [qPush_side_same]
  exact qseq_push hi (one_le_qFree_iff.1 h) rfl rfl rfl

/-- Settles O23: the written context, read slot by slot and counter by counter. -/
theorem pushWritesTheTailSlot : Obligations.PushWritesTheTailSlot := by
  intro σ t f
  refine ⟨rfl, fun h => ?_⟩
  have hlt := one_le_qFree_iff.1 h
  refine ⟨?_, fun j => ?_, ?_, ?_, qPush_eq_setSide, fun hi => qseq_qPush hi h⟩
  · rw [qPush_side_same]
  · rw [qPush_side_same]; exact slot_setIfInBounds _ _ _ j
  · rw [qPush_side_same]; exact pointer_add_one_toNat _
  · rw [qPush_side_same]; exact qcnt_add_one_toNat hlt

/-! ## The pop -/

@[simp] theorem qPop_fst : (qPop σ s).1 = qHeadFrame (σ.side s) := rfl

@[simp] theorem qPop_snd_side_same :
    (qPop σ s).2.side s = { σ.side s with qhead := (σ.side s).qhead + 1, qcnt := (σ.side s).qcnt - 1 } := by
  rw [qPop, setSide_side_same]

theorem qPop_snd_eq_setSide : (qPop σ s).2 = σ.setSide s ((qPop σ s).2.side s) := by
  rw [qPop_snd_side_same, qPop]

/-- A pop with a frame held returns the head of the sequence and leaves its tail. -/
theorem qseq_qPop (h : 1 ≤ (σ.side s).qcnt.toNat) :
    qseq (σ.side s) = (qPop σ s).1 :: qseq ((qPop σ s).2.side s) := by
  rw [qPop_fst, qPop_snd_side_same]
  exact qseq_pop h rfl rfl rfl

/-- Settles O24: the frame returned is the head slot's, the context left steps head and count. -/
theorem popTakesTheHeadSlot : Obligations.PopTakesTheHeadSlot := by
  intro σ s h
  refine ⟨fun k => ?_, ?_, ?_, ?_, qPop_snd_eq_setSide, qseq_qPop h⟩
  · rw [qPop_fst, qHeadFrame_eq]
  · rw [qPop_snd_side_same]
  · rw [qPop_snd_side_same]; exact pointer_add_one_toNat _
  · rw [qPop_snd_side_same]; exact qcnt_sub_one_toNat h

/-! ## The destination of a step of the reassembler -/

/-- A step of the reassembler leaves its destination's sequence as it was, or finds a free slot there and adds the
working buffer at the end. -/
theorem qseq_scanStep_peer (hi : SideInv (σ.side (peer s))) :
    qseq ((scanStep σ s).side (peer s)) = qseq (σ.side (peer s)) ∨
      (1 ≤ qFree σ (peer s) ∧
        qseq ((scanStep σ s).side (peer s)) = qseq (σ.side (peer s)) ++ [wbAfter σ s]) := by
  rw [scanStep_side_peer]
  by_cases h : scanFlushes σ s = true ∧ 1 ≤ qFree σ (peer s)
  · have hp : scanPeer σ s = (qPush σ (peer s) (wbAfter σ s)).side (peer s) := by
      rw [scanPeer_of_push h.1 h.2, qPush_side_same, slot_setIfInBounds_eq_set]
    exact .inr ⟨h.2, by rw [hp]; exact qseq_qPush hi h.2⟩
  · exact .inl (by rw [scanPeer_of_not_push h])

/-- With no free slot at the destination a step of the reassembler leaves that side as it was. -/
theorem scanStep_side_peer_of_full (h : qFree σ (peer s) = 0) :
    (scanStep σ s).side (peer s) = σ.side (peer s) := by
  rw [scanStep_side_peer]
  exact scanPeer_of_not_push fun ⟨_, hq⟩ => by omega

/-- No step of the reassembler alters the frames its destination holds: they stay the first of the sequence. -/
theorem qseq_prefix_scanStep_peer (hi : SideInv (σ.side (peer s))) :
    qseq (σ.side (peer s)) <+: qseq ((scanStep σ s).side (peer s)) := by
  rcases qseq_scanStep_peer hi with h | ⟨_, h⟩
  · rw [h]
  · rw [h]; exact List.prefix_append _ _

/-- Settles O26: the step is taken; a full destination is kept whole, and in any case what it held stays in front. -/
theorem fullQueueDropsTheNewest : Obligations.FullQueueDropsTheNewest := by
  intro σ s hm hp hlt hi
  exact ⟨scanStep σ s, execRstep_of_scan σ s hm hp hlt, scanStep_side_peer_of_full, qseq_prefix_scanStep_peer hi⟩

end Machine
end Sys2Proof
end

section
/-! The transmit flow (43_transmit_flow.md): what `TXDEFER` and `TXDONE` do where they are enabled, that they are refused
where they are not, and their words. -/

namespace Sys2Proof

/-- The word of an operation with the one operand `s`: the word `w` of its operation code in bits 19 to 16, and its side in
bit 20 (30_encoding.md R81). -/
theorem encode_of_sideOnly {i : Instr} {s : Side} {w : OpWord} (hs : sideFieldOf i = bitOfSide s)
    (ho : (opcodeOf i).setWidth 24 <<< 16 = w) (ha : fieldAOf i = 0) (hb : fieldBOf i = 0) :
    encode i = w ||| ((bitOfSide s).setWidth 24 <<< 20) := by
  rw [encode_eq, hs, ha, hb, ← ho]
  generalize opcodeOf i = opc
  generalize bitOfSide s = b
  revert opc b
  decide

namespace Machine

variable {σ : State} {s : Side} {i : Instr}

/-! ## Refusal and repetition -/

/-- An operation whose guard gives a reason is refused (00_scope.md R13). -/
theorem refused_of_guard {g : Option Refusal} {o : Host.Outcome State Fault Refusal}
    (he : exec i σ = whenEnabled g o) (hg : g ≠ none) : Refused i σ := by
  obtain ⟨r, rfl⟩ := Option.ne_none_iff_exists'.1 hg
  exact ⟨r, he⟩

/-- An operation that changes nothing is accepted any number of times and still changes nothing. -/
theorem accept_replicate_of_exec_self (h : exec i σ = .next σ) (n : Nat) :
    accept (List.replicate n i) σ = some σ := by
  induction n with
  | zero => rfl
  | succ n ih => rw [List.replicate_succ, accept_cons h, ih]

/-! ## `TXDEFER` (R152) -/

theorem exec_txdefer_of_enabled (h : Enabled (.txdefer s) σ) : exec (.txdefer s) σ = .next σ :=
  (execTxdefer_next_iff σ σ s).2 ⟨h, rfl⟩

theorem refused_txdefer_of_not_enabled (h : ¬ Enabled (.txdefer s) σ) : Refused (.txdefer s) σ :=
  refused_of_guard rfl (mt (guardTxdefer_none_iff σ s).1 h)

/-- Settles O30: an enabled `TXDEFER` is a step from the state to itself, so any number of them is. -/
theorem deferChangesNothing : Obligations.DeferChangesNothing := by
  intro σ s
  refine ⟨fun h n => ?_, refused_txdefer_of_not_enabled, encode_of_sideOnly rfl rfl rfl rfl⟩
  have hself : exec (.txdefer s) σ = .next σ := exec_txdefer_of_enabled h
  exact ⟨accept_replicate_of_exec_self hself n, hself⟩

/-! ## `TXDONE` (R153) -/

theorem exec_txdone_of_run (h : σ.mode = .run) :
    exec (.txdone s) σ = .next (σ.setSide s { σ.side s with txf := false }) :=
  (execTxdone_next_iff σ _ s).2 ⟨h, rfl⟩

theorem refused_txdone_of_not_run (h : σ.mode ≠ .run) : Refused (.txdone s) σ :=
  refused_of_guard rfl (mt (guardRun_none_iff σ).1 h)

/-- Clearing a clear flag changes nothing. -/
theorem setSide_clearFlag_of_clear (h : (σ.side s).txf = false) :
    σ.setSide s { σ.side s with txf := false } = σ := by
  rw [← h, setSide_side_self]

/-- Settles O31: the step in `RUN` clears the flag, and that is no change where it was clear. -/
theorem transmitDoneClearsTheFlag : Obligations.TransmitDoneClearsTheFlag := by
  intro σ s
  refine ⟨exec_txdone_of_run, fun hm hf => ?_, refused_txdone_of_not_run, encode_of_sideOnly rfl rfl rfl rfl⟩
  rw [exec_txdone_of_run hm, setSide_clearFlag_of_clear hf]

end Machine
end Sys2Proof
end

section
/-! The encoding (30_encoding.md): one row per operation of what the decoder answers, and from it the round trip, the
operation map, the illegal words and what a step does with a word. -/

namespace Sys2Proof

variable {w : OpWord} {i : Instr}

/-! ## The decoder's arms -/

theorem decodeSideOnly_ok_iff {mk : Side → Instr} : decodeSideOnly mk w = .ok i ↔
    fieldA w = 0 ∧ fieldB w = 0 ∧ mk (sideOfBit (fieldS w)) = i := by
  unfold decodeSideOnly
  split_ifs <;> simp_all

theorem decodeReset_ok_iff : decodeReset w = .ok i ↔
    fieldS w = 0 ∧ fieldA w = 0 ∧ fieldB w = 0 ∧ .reset = i := by
  unfold decodeReset
  split_ifs <;> simp_all

theorem decodeEnable_ok_iff : decodeEnable w = .ok i ↔
    fieldS w = 0 ∧ fieldA w = 0 ∧ (fieldB w).extractLsb' 4 4 = 0 ∧ fcLegal ((fieldB w).extractLsb' 0 4) = true ∧
      .enable ((fieldB w).extractLsb' 0 4) = i := by
  unfold decodeEnable
  split_ifs <;> simp_all

theorem decodeDmawr_ok_iff : decodeDmawr w = .ok i ↔ .dmawr (sideOfBit (fieldS w)) (fieldA w) (fieldB w) = i := by
  simp [decodeDmawr]

theorem decodeTxissue_ok_iff : decodeTxissue w = .ok i ↔
    fieldA w = 0 ∧ (fieldB w).extractLsb' 1 7 = 0 ∧
      .txissue (sideOfBit (fieldS w)) (answerOfBit ((fieldB w).extractLsb' 0 1)) = i := by
  unfold decodeTxissue
  split_ifs <;> simp_all

theorem decodeWord_ok_iff : decodeWord w = .ok i ↔ fieldRsv w = 0 ∧ decodeByOpcode (fieldOpc w).toNat w = .ok i := by
  unfold decodeWord
  split_ifs <;> simp_all

/-! ## The halves of the field `B` -/

/-- The two halves of a byte made of them. -/
theorem extract_low_of_append (h l : BitVec 4) : (h ++ l).extractLsb' 0 4 = l ∧ (h ++ l).extractLsb' 4 4 = h := by
  revert h l; decide

theorem append_extract_nibbles (b : Byte) : b.extractLsb' 4 4 ++ b.extractLsb' 0 4 = b := by
  revert b; decide

theorem extract_of_append_bit (h : BitVec 7) (l : BitVec 1) :
    (h ++ l).extractLsb' 0 1 = l ∧ (h ++ l).extractLsb' 1 7 = h := by
  revert h l; decide

theorem append_extract_bit (b : Byte) : b.extractLsb' 1 7 ++ b.extractLsb' 0 1 = b := by
  revert b; decide

/-! ## The round trip -/

/-- Decoding the word of a well-formed operation gives it back. -/
theorem decodeWord_encode (h : i.wf = true) : decodeWord (encode i) = .ok i := by
  refine decodeWord_ok_iff.2 ⟨fieldRsv_encode i, ?_⟩
  rw [fieldOpc_encode]
  cases i with
  | reset => exact decodeReset_ok_iff.2 ⟨fieldS_encode _, fieldA_encode _, fieldB_encode _, rfl⟩
  | enable fc =>
    have hb : fieldB (encode (.enable fc)) = 0#4 ++ fc := fieldB_encode _
    obtain ⟨hl, hh⟩ := extract_low_of_append 0#4 fc
    refine decodeEnable_ok_iff.2 ⟨fieldS_encode _, fieldA_encode _, ?_⟩
    rw [hb, hl, hh]
    exact ⟨rfl, h, rfl⟩
  | dmawr s a d =>
    refine decodeDmawr_ok_iff.2 ?_
    simp [sideFieldOf, fieldAOf, fieldBOf]
  | txissue s e =>
    have hb : fieldB (encode (.txissue s e)) = 0#7 ++ bitOfAnswer e := fieldB_encode _
    obtain ⟨hl, hh⟩ := extract_of_append_bit 0#7 (bitOfAnswer e)
    refine decodeTxissue_ok_iff.2 ⟨fieldA_encode _, ?_⟩
    rw [hb, hl, hh]
    simp [sideFieldOf]
  | rxhalf s | rxfull s | txdone s | ntake s | rstep s | txdefer s =>
    refine decodeSideOnly_ok_iff.2 ⟨fieldA_encode _, fieldB_encode _, ?_⟩
    simp [sideFieldOf]

/-- What a word decodes to is well formed and has the word's fields. -/
theorem decodeByOpcode_ok_fields (h : decodeByOpcode (fieldOpc w).toNat w = .ok i) :
    i.wf = true ∧ sideFieldOf i = fieldS w ∧ opcodeOf i = fieldOpc w ∧ fieldAOf i = fieldA w ∧ fieldBOf i = fieldB w := by
  have hopc : ∀ k : BitVec 4, (fieldOpc w).toNat = k.toNat → k = fieldOpc w :=
    fun k hk => (BitVec.eq_of_toNat_eq hk).symm
  -- the arms of the decoder: those with checks of their own first, then the six whose one operand is a side
  unfold decodeByOpcode at h
  split at h
  case h_1 ho =>
    obtain ⟨hs, ha, hb, rfl⟩ := decodeReset_ok_iff.1 h
    exact ⟨rfl, hs.symm, hopc 0x0 ho, ha.symm, hb.symm⟩
  case h_2 ho =>
    obtain ⟨hs, ha, hb, hl, rfl⟩ := decodeEnable_ok_iff.1 h
    refine ⟨hl, hs.symm, hopc 0x1 ho, ha.symm, ?_⟩
    conv_rhs => rw [← append_extract_nibbles (fieldB w), hb]
    rfl
  case h_3 ho =>
    obtain rfl := decodeDmawr_ok_iff.1 h
    exact ⟨rfl, bitOfSide_sideOfBit _, hopc 0x2 ho, rfl, rfl⟩
  case h_9 ho =>
    obtain ⟨ha, hb, rfl⟩ := decodeTxissue_ok_iff.1 h
    refine ⟨rfl, bitOfSide_sideOfBit _, hopc 0xA ho, ha.symm, ?_⟩
    conv_rhs => rw [← append_extract_bit (fieldB w), hb]
    simp [fieldBOf]
  case h_11 => cases h
  case' h_4 ho => have hk := hopc 0x3 ho
  case' h_5 ho => have hk := hopc 0x4 ho
  case' h_6 ho => have hk := hopc 0x5 ho
  case' h_7 ho => have hk := hopc 0x8 ho
  case' h_8 ho => have hk := hopc 0x9 ho
  case' h_10 ho => have hk := hopc 0xB ho
  all_goals
    obtain ⟨ha, hb, rfl⟩ := decodeSideOnly_ok_iff.1 h
    exact ⟨rfl, bitOfSide_sideOfBit _, hk, ha.symm, hb.symm⟩

/-- Decoding and encoding are inverse on words that decode and well-formed operations. -/
theorem decodeWord_ok_iff_encode : decodeWord w = .ok i ↔ i.wf = true ∧ encode i = w := by
  constructor
  · intro h
    obtain ⟨hr, h⟩ := decodeWord_ok_iff.1 h
    obtain ⟨hwf, hs, ho, ha, hb⟩ := decodeByOpcode_ok_fields h
    exact ⟨hwf, encode_eq_of_fields hr hs ho ha hb⟩
  · rintro ⟨hwf, rfl⟩
    exact decodeWord_encode hwf

/-- Settles O1: the stored bytes make the word again, and the word decodes to its operation. -/
theorem decodeOfEncodeGivesTheOperation : Obligations.DecodeOfEncodeGivesTheOperation := by
  intro i rest hwf
  rw [encodeBytes, decode_bytesOfWord, decodeWord_encode hwf]

/-- Settles O2: the fields of a word that decodes are those of its operation, and a word is made of its fields. -/
theorem encodeOfDecodeGivesTheWord : Obligations.EncodeOfDecodeGivesTheWord :=
  fun _ _ h => decodeWord_ok_iff_encode.1 h

end Sys2Proof
end

section
/-! The operation map and the illegal words (30_encoding.md R84, R87), each compared with the decoder code by code. -/

namespace Sys2Proof

variable {w v : OpWord}

/-! ## When an arm of the decoder answers an operation -/

theorem decodeSideOnly_ok_exists_iff (mk : Side → Instr) :
    (∃ i, decodeSideOnly mk w = .ok i) ↔ fieldA w = 0 ∧ fieldB w = 0 := by
  simp only [decodeSideOnly_ok_iff, exists_and_left, exists_eq', and_true]

theorem decodeReset_ok_exists_iff : (∃ i, decodeReset w = .ok i) ↔ fieldS w = 0 ∧ fieldA w = 0 ∧ fieldB w = 0 := by
  simp only [decodeReset_ok_iff, exists_and_left, exists_eq', and_true]

theorem decodeEnable_ok_exists_iff : (∃ i, decodeEnable w = .ok i) ↔
    fieldS w = 0 ∧ fieldA w = 0 ∧ (fieldB w).extractLsb' 4 4 = 0 ∧ fcLegal ((fieldB w).extractLsb' 0 4) = true := by
  simp only [decodeEnable_ok_iff, exists_and_left, exists_eq', and_true]

theorem decodeDmawr_ok_exists_iff : (∃ i, decodeDmawr w = .ok i) ↔ True := by
  simp only [decodeDmawr_ok_iff, exists_eq']

theorem decodeTxissue_ok_exists_iff : (∃ i, decodeTxissue w = .ok i) ↔
    fieldA w = 0 ∧ (fieldB w).extractLsb' 1 7 = 0 := by
  simp only [decodeTxissue_ok_iff, exists_and_left, exists_eq', and_true]

/-! ## A row of the operation map -/

/-- Two words are equal when their five fields are. -/
theorem word_eq_iff_fields : w = v ↔
    fieldRsv w = fieldRsv v ∧ fieldS w = fieldS v ∧ fieldOpc w = fieldOpc v ∧ fieldA w = fieldA v ∧
      fieldB w = fieldB v := by
  constructor
  · rintro rfl; exact ⟨rfl, rfl, rfl, rfl, rfl⟩
  · rintro ⟨hr, hs, ho, ha, hb⟩
    rw [← join_fields w, ← join_fields v, hr, hs, ho, ha, hb]

/-- A row that asks for its code, for no reserved bit, and for zero under the masks of the other fields. -/
theorem matchesWord_iff {r : OpRow} {ms : BitVec 1} {ma mb : BitVec 8}
    (hr : r.mask = joinFields 7 ms 15 ma mb ∧ r.pattern = joinFields 0 0 r.opc 0 0) :
    r.matchesWord w = true ↔
      (fieldRsv w = 0 ∧ fieldOpc w = r.opc) ∧ fieldS w &&& ms = 0 ∧ fieldA w &&& ma = 0 ∧ fieldB w &&& mb = 0 := by
  have and_fields : ∀ m : OpWord, fieldRsv (w &&& m) = fieldRsv w &&& fieldRsv m ∧
      fieldS (w &&& m) = fieldS w &&& fieldS m ∧ fieldOpc (w &&& m) = fieldOpc w &&& fieldOpc m ∧
      fieldA (w &&& m) = fieldA w &&& fieldA m ∧ fieldB (w &&& m) = fieldB w &&& fieldB m := fun m => by
    simp only [fieldRsv, fieldS, fieldOpc, fieldA, fieldB, BitVec.extractLsb'_and, and_self]
  obtain ⟨h1, h2, h3, h4, h5⟩ := and_fields (joinFields 7 ms 15 ma mb)
  have hall3 : ∀ x : BitVec 3, x &&& 7 = x := by decide
  have hall4 : ∀ x : BitVec 4, x &&& 15 = x := by decide
  unfold OpRow.matchesWord
  rw [decide_eq_true_iff, hr.1, hr.2, word_eq_iff_fields, h1, h2, h3, h4, h5]
  simp only [fieldRsv_join, fieldS_join, fieldOpc_join, fieldA_join, fieldB_join, hall3, hall4]
  tauto

/-- What a byte is under each mask the rows put on `A` and `B`. -/
theorem byte_masks (b : Byte) : (b &&& 0xFF = 0 ↔ b = 0) ∧ (b &&& 0xF0 = 0 ↔ b.extractLsb' 4 4 = 0) ∧
    (b &&& 0xFE = 0 ↔ b.extractLsb' 1 7 = 0) ∧ b &&& 0 = 0 := by
  revert b; decide

theorem bit_masks (b : BitVec 1) : (b &&& 1 = 0 ↔ b = 0) ∧ b &&& 0 = 0 := by revert b; decide

/-- The lower four bits of a word are those of its field `B`. -/
theorem extract_low_fieldB : w.extractLsb' 0 4 = (fieldB w).extractLsb' 0 4 := by
  unfold fieldB
  ext i hi
  simp only [BitVec.getElem_extractLsb', BitVec.getLsbD_extractLsb']
  rw [decide_eq_true (by omega : 0 + i < 8), Bool.true_and]
  congr 1; omega

/-- A row is matched, its result code legal, exactly when the decoder answers an operation under its code. -/
theorem row_matches_iff {r : OpRow} (hr : r ∈ opTable) :
    (r.matchesWord w = true ∧ (r.opc = 0x1 → fcLegal (w.extractLsb' 0 4) = true)) ↔
      (fieldRsv w = 0 ∧ fieldOpc w = r.opc) ∧ ∃ i, decodeByOpcode r.opc.toNat w = .ok i := by
  obtain ⟨hmA, hmF, hmE, hm0⟩ := byte_masks (fieldB w)
  obtain ⟨haA, -, -, ha0⟩ := byte_masks (fieldA w)
  obtain ⟨hs1, hs0⟩ := bit_masks (fieldS w)
  have hlow := extract_low_fieldB (w := w)
  have one_side_only : ∀ q : OpRow, (q.mask = joinFields 7 0 15 0xFF 0xFF ∧ q.pattern = joinFields 0 0 q.opc 0 0) →
      q.opc ≠ 0x1 → ∀ mk : Side → Instr,
      ((q.matchesWord w = true ∧ (q.opc = 0x1 → fcLegal (w.extractLsb' 0 4) = true)) ↔
        (fieldRsv w = 0 ∧ fieldOpc w = q.opc) ∧ ∃ i, decodeSideOnly mk w = .ok i) := by
    intro q hq hne mk
    rw [matchesWord_iff hq, decodeSideOnly_ok_exists_iff, haA, hmA]
    tauto
  simp only [opTable, List.mem_cons, List.not_mem_nil, or_false] at hr
  rcases hr with rfl | rfl | rfl | rfl | rfl | rfl | rfl | rfl | rfl | rfl
  · rw [matchesWord_iff (ms := 1) (ma := 0xFF) (mb := 0xFF) (by decide), hs1, haA, hmA]
    exact ⟨fun h => ⟨h.1.1, decodeReset_ok_exists_iff.2 h.1.2⟩,
      fun h => ⟨⟨h.1, decodeReset_ok_exists_iff.1 h.2⟩, fun h0 => absurd h0 (by decide)⟩⟩
  · rw [matchesWord_iff (ms := 1) (ma := 0xFF) (mb := 0xF0) (by decide), hs1, haA, hmF, hlow]
    constructor
    · rintro ⟨⟨h, hs, ha, hb⟩, hl⟩
      exact ⟨h, decodeEnable_ok_exists_iff.2 ⟨hs, ha, hb, hl rfl⟩⟩
    · rintro ⟨h, hi⟩
      obtain ⟨hs, ha, hb, hl⟩ := decodeEnable_ok_exists_iff.1 hi
      exact ⟨⟨h, hs, ha, hb⟩, fun _ => hl⟩
  · rw [matchesWord_iff (ms := 0) (ma := 0) (mb := 0) (by decide)]
    exact ⟨fun h => ⟨h.1.1, decodeDmawr_ok_exists_iff.2 trivial⟩,
      fun h => ⟨⟨h.1, hs0, ha0, hm0⟩, fun h0 => absurd h0 (by decide)⟩⟩
  · exact one_side_only _ (by decide) (by decide) _
  · exact one_side_only _ (by decide) (by decide) _
  · exact one_side_only _ (by decide) (by decide) _
  · exact one_side_only _ (by decide) (by decide) _
  · exact one_side_only _ (by decide) (by decide) _
  · rw [matchesWord_iff (ms := 0) (ma := 0xFF) (mb := 0xFE) (by decide), haA, hmE]
    exact ⟨fun h => ⟨h.1.1, decodeTxissue_ok_exists_iff.2 h.1.2.2⟩,
      fun h => ⟨⟨h.1, hs0, decodeTxissue_ok_exists_iff.1 h.2⟩, fun h0 => absurd h0 (by decide)⟩⟩
  · exact one_side_only _ (by decide) (by decide) _

/-- Each operation has a row under its mnemonic, and a row of that mnemonic has its code. -/
theorem opTable_row_of_instr (i : Instr) :
    (∃ r ∈ opTable, r.mnemonic = mnemonicOf i) ∧
      ∀ r ∈ opTable, r.mnemonic = mnemonicOf i ↔ r.opc = opcodeOf i := by
  cases i <;> exact ⟨by simp only [mnemonicOf]; decide, by simp only [mnemonicOf, opcodeOf]; decide⟩

/-- Settles O3: the mnemonic picks the row, and the row is matched where the decoder answers under its code. -/
theorem decoderAgreesWithTheOperationMap : Obligations.DecoderAgreesWithTheOperationMap := by
  intro w m
  constructor
  · rintro ⟨i, hi, rfl⟩
    obtain ⟨⟨r, hr, hm⟩, hcode⟩ := opTable_row_of_instr i
    obtain ⟨hrsv, hd⟩ := decodeWord_ok_iff.1 hi
    obtain ⟨-, -, ho, -⟩ := decodeByOpcode_ok_fields hd
    have hopc : fieldOpc w = r.opc := ho.symm.trans ((hcode r hr).1 hm).symm
    exact ⟨r, hr, hm, (row_matches_iff hr).2 ⟨⟨hrsv, hopc⟩, i, hopc ▸ hd⟩⟩
  · rintro ⟨r, hr, rfl, hmatch⟩
    obtain ⟨⟨hrsv, hopc⟩, i, hd⟩ := (row_matches_iff hr).1 hmatch
    rw [← hopc] at hd
    obtain ⟨-, -, ho, -⟩ := decodeByOpcode_ok_fields hd
    exact ⟨i, decodeWord_ok_iff.2 ⟨hrsv, hd⟩,
      (((opTable_row_of_instr i).2 r hr).2 (hopc.symm.trans ho.symm)).symm⟩

/-! ## Illegal words -/

/-- The legal result codes, listed. -/
theorem fcLegal_iff_mem (fc : BitVec 4) :
    fcLegal fc = true ↔ fc ∈ [0x0#4, 0x1#4, 0x2#4, 0x3#4, 0x4#4, 0x9#4, 0xA#4, 0xB#4, 0xC#4] := by
  revert fc; decide

/-- A word is illegal when it decodes to no operation. -/
theorem decodeWord_error_iff : (∃ why, decodeWord w = .error why) ↔
    fieldRsv w ≠ 0 ∨ ¬ ∃ i, decodeByOpcode (fieldOpc w).toNat w = .ok i := by
  have hok : (∃ why, decodeWord w = .error why) ↔ ¬ ∃ i, decodeWord w = .ok i := by
    cases decodeWord w <;> simp
  rw [hok]
  simp only [decodeWord_ok_iff, exists_and_left]
  tauto

theorem opcode_cases (o : BitVec 4) :
    o ∈ [0x6#4, 0x7#4, 0xC#4, 0xD#4, 0xE#4, 0xF#4] ∨ o ∈ [0x3#4, 0x4#4, 0x5#4, 0x8#4, 0x9#4, 0xB#4] ∨
      o = 0x0 ∨ o = 0x1 ∨ o = 0x2 ∨ o = 0xA := by
  revert o; decide

/-- Under a code that names no operation the decoder answers none. -/
theorem decodeByOpcode_ok_exists_of_none {o : BitVec 4} (ho : o ∈ [0x6#4, 0x7#4, 0xC#4, 0xD#4, 0xE#4, 0xF#4]) :
    ¬ ∃ i, decodeByOpcode o.toNat w = .ok i := by
  simp only [List.mem_cons, List.not_mem_nil, or_false] at ho
  rintro ⟨i, hi⟩
  rcases ho with rfl | rfl | rfl | rfl | rfl | rfl <;> cases hi

/-- Under the code of an operation with the one operand `s` the other fields must be 0. -/
theorem decodeByOpcode_ok_exists_of_sideOnly {o : BitVec 4}
    (ho : o ∈ [0x3#4, 0x4#4, 0x5#4, 0x8#4, 0x9#4, 0xB#4]) :
    (∃ i, decodeByOpcode o.toNat w = .ok i) ↔ fieldA w = 0 ∧ fieldB w = 0 := by
  simp only [List.mem_cons, List.not_mem_nil, or_false] at ho
  rcases ho with rfl | rfl | rfl | rfl | rfl | rfl <;> exact decodeSideOnly_ok_exists_iff _

/-- Settles O5: the listed conditions are the failing ones of the decoder's arm under each kind of code. -/
theorem illegalWordsAreThoseListed : Obligations.IllegalWordsAreThoseListed := by
  intro w
  rw [decodeWord_error_iff]
  simp only [← fcLegal_iff_mem]
  refine or_congr_right ?_
  generalize fieldOpc w = o
  rcases opcode_cases o with ho | ho | rfl | rfl | rfl | rfl
  · exact iff_of_true (decodeByOpcode_ok_exists_of_none ho) (.inl ho)
  · rw [decodeByOpcode_ok_exists_of_sideOnly ho]
    simp only [List.mem_cons, List.not_mem_nil, or_false] at ho
    rcases ho with rfl | rfl | rfl | rfl | rfl | rfl <;> simp [imp_iff_not_or]
  · refine (not_congr decodeReset_ok_exists_iff).trans ?_
    simp [imp_iff_not_or]
  · refine (not_congr decodeEnable_ok_exists_iff).trans ?_
    simp [imp_iff_not_or]
  · refine (not_congr decodeDmawr_ok_exists_iff).trans ?_
    simp
  · refine (not_congr decodeTxissue_ok_exists_iff).trans ?_
    simp [imp_iff_not_or]

/-- Settles O4: each word is the encoding of the operation listed, which is well formed. -/
theorem exampleWordsDecode : Obligations.ExampleWordsDecode := by
  refine ⟨?_, ?_, ?_, ?_, ?_, ?_, ?_, ?_, ?_, ?_, ?_, ?_⟩ <;> exact decodeWord_ok_iff_encode.2 (by decide)

end Sys2Proof
end

section
/-! What a step does with the stored bytes of the next operation (30_encoding.md R83, R87, R88). -/

namespace Sys2Proof
namespace Machine

variable {σ : State}

theorem fetch_of_decode {i : Instr} {rest : List Byte} (h : decode σ.trace = .ok (i, rest)) :
    fetch σ = .ok (i, { σ with trace := rest }) := by
  unfold fetch; rw [h]

theorem step_of_decode {i : Instr} {rest : List Byte} (h : decode σ.trace = .ok (i, rest)) :
    step σ = exec i { σ with trace := rest } := by
  unfold step; rw [fetch_of_decode h]

/-- Where no operation can be read the step is refused for that reason. -/
theorem step_of_decode_error {why : NoOp} (h : decode σ.trace = .error why) :
    step σ = .refused (.noOperation why) := by
  unfold step fetch; rw [h]

/-- What a step can be: the operation read from the trace, run with its word taken; or a refusal. -/
theorem step_cases (σ : State) :
    (∃ i rest, step σ = exec i { σ with trace := rest }) ∨ ∃ r, step σ = .refused r := by
  cases h : decode σ.trace with
  | ok p => exact .inl ⟨p.1, p.2, step_of_decode h⟩
  | error why => exact .inr ⟨_, step_of_decode_error h⟩

/-- One or two bytes are less than a word. -/
theorem decode_of_short {bytes : List Byte} (h : bytes.length = 1 ∨ bytes.length = 2) :
    decode bytes = .error .truncatedWord := by
  match bytes, h with
  | [_], _ => rfl
  | [_, _], _ => rfl
  | [], h => simp at h
  | _ :: _ :: _ :: _, h => simp at h

/-- Settles O7: the trace decodes to the operation it begins with. -/
theorem stepRunsTheDecodedOperation : Obligations.StepRunsTheDecodedOperation := by
  intro σ i rest hwf ht
  exact step_of_decode (ht ▸ decodeOfEncodeGivesTheOperation i rest hwf)

/-- Settles O8: each of the three traces decodes to its reason. -/
theorem stepRefusesWhatIsNoOperation : Obligations.StepRefusesWhatIsNoOperation := by
  intro σ
  refine ⟨fun w why rest hw ht => step_of_decode_error ?_, fun ht => step_of_decode_error ?_,
    fun hl => step_of_decode_error (decode_of_short hl)⟩
  · rw [ht, decode_bytesOfWord, hw]
  · rw [ht]; rfl

end Machine
end Sys2Proof
end

section
/-! The trace text (30_encoding.md R90): how a line that `textOf` writes is cut into words and read back. -/

namespace Sys2Proof
namespace Machine

/-! ## Words -/

/-- A character that neither ends a word nor opens a quotation. -/
def isWordChar (c : Char) : Bool :=
  !(decide (c.toNat = 39) || decide (c = ';') || decide (c = ',') || decide (c = ' ') || decide (c.toNat = 9))

theorem lex_wordChar {c : Char} (h : isWordChar c = true) (acc rest : List Char) :
    lex (.plain acc) (c :: rest) = lex (.plain (c :: acc)) rest := by
  simp only [isWordChar, Bool.not_eq_true', Bool.or_eq_false_iff, decide_eq_false_iff_not] at h
  obtain ⟨⟨⟨⟨hq, hs⟩, hc⟩, hb⟩, ht⟩ := h
  rw [lex, if_neg hq, if_neg hs, if_neg hc, if_neg (not_or.2 ⟨hb, ht⟩)]

/-- A word of a line: not empty, all of word characters. -/
def isWord (cs : List Char) : Bool := cs.all isWordChar && !cs.isEmpty

theorem isWord_iff {cs : List Char} : isWord cs = true ↔ (∀ c ∈ cs, isWordChar c = true) ∧ cs ≠ [] := by
  simp [isWord]

/-- A run of word characters is gathered. -/
theorem lex_append_word {cs : List Char} (h : ∀ c ∈ cs, isWordChar c = true) (acc rest : List Char) :
    lex (.plain acc) (cs ++ rest) = lex (.plain (cs.reverse ++ acc)) rest := by
  induction cs generalizing acc with
  | nil => rfl
  | cons c cs ih =>
    rw [List.cons_append, lex_wordChar (h c (by simp)), ih (fun d hd => h d (by simp [hd]))]
    simp

/-- A word closed by the end of the line. -/
theorem lex_word_end {cs : List Char} (hw : isWord cs = true) : lex (.plain []) cs = [.word cs] := by
  obtain ⟨h, hne⟩ := isWord_iff.1 hw
  have hl := lex_append_word h [] []
  rw [List.append_nil] at hl
  rw [hl, lex, closeWord, List.append_nil, if_neg (by simpa using hne), List.reverse_reverse]

/-- A word closed by a blank. -/
theorem lex_word_blank {cs : List Char} (hw : isWord cs = true) (rest : List Char) :
    lex (.plain []) (cs ++ ' ' :: rest) = .word cs :: lex (.plain []) rest := by
  obtain ⟨h, hne⟩ := isWord_iff.1 hw
  rw [lex_append_word h, lex, if_neg (by decide), if_neg (by decide), if_neg (by decide), if_pos (.inl rfl),
    closeWord, List.append_nil, if_neg (by simpa using hne), List.reverse_reverse]

/-- A word closed by a comma and a blank. -/
theorem lex_word_comma {cs : List Char} (hw : isWord cs = true) (rest : List Char) :
    lex (.plain []) (cs ++ ',' :: ' ' :: rest) = .word cs :: .comma :: lex (.plain []) rest := by
  obtain ⟨h, hne⟩ := isWord_iff.1 hw
  rw [lex_append_word h, lex, if_neg (by decide), if_neg (by decide), if_pos rfl,
    closeWord, List.append_nil, if_neg (by simpa using hne), List.reverse_reverse,
    lex, if_neg (by decide), if_neg (by decide), if_neg (by decide), if_pos (.inl rfl), closeWord, if_pos rfl]

/-! ## Numbers -/

/-- The character of a digit reads as that digit and stands inside a word. -/
theorem digit_hexDigit : ∀ n < 16, digit? 16 (hexDigit n) = some n ∧ isWordChar (hexDigit n) = true := by decide

theorem isWord_hexByte (b : Byte) : isWord (hexByte b) = true := by
  have hhi := (digit_hexDigit (b.toNat / 16) (by omega)).2
  have hlo := (digit_hexDigit (b.toNat % 16) (by omega)).2
  have hprefix : isWordChar '0' = true ∧ isWordChar 'x' = true := by decide
  simp [isWord, hexByte, hhi, hlo, hprefix]

/-- A byte written as `0x` and two digits reads back as that byte. -/
theorem byteNumber_hexByte (b : Byte) : byteNumber? (hexByte b) = some b := by
  have hhi := (digit_hexDigit (b.toNat / 16) (by omega)).1
  have hlo := (digit_hexDigit (b.toNat % 16) (by omega)).1
  have hval : (0 * 16 + b.toNat / 16) * 16 + b.toNat % 16 = b.toNat := by omega
  have hnum : number? (hexByte b) = some b.toNat := by
    rw [hexByte, number?, if_pos ⟨rfl, rfl⟩, if_neg (by simp)]
    simp only [digits?, hhi, hlo, hval]
  rw [byteNumber?, hnum]
  simp only [if_pos (by omega : b.toNat ≤ 255), BitVec.ofNat_toNat, BitVec.setWidth_eq]

/-! ## Lines -/

theorem isWord_sideText (s : Side) : isWord (sideText s) = true := by cases s <;> decide

theorem sideTok_sideText (s : Side) : sideTok? (.word (sideText s)) = some s := by cases s <;> rfl

theorem isWord_spelling (n : Name) : isWord n.spelling = true := by cases n <;> decide

theorem name_spelling (n : Name) : name? n.spelling = some n := by cases n <;> decide

/-- A line of a mnemonic and operands is read by its mnemonic. -/
theorem parseLine_oneOperand (n : Name) (operand : List Char) :
    parseLine (oneOperand n operand) = line? n (groups (lex (.plain []) operand)) := by
  unfold parseLine oneOperand
  rw [lex_word_blank (isWord_spelling n)]
  simp only [name_spelling]

/-- The line of an operation whose one operand is a side reads back as it. -/
theorem parseLine_side (n : Name) (mk : Side → Instr) (hline : ∀ gs, line? n gs = sideLine? (fun s => [mk s]) gs)
    (s : Side) : parseLine (oneOperand n (sideText s)) = some [mk s] := by
  rw [parseLine_oneOperand, lex_word_end (isWord_sideText s), hline]
  show (sideTok? (.word (sideText s))).map _ = _
  rw [sideTok_sideText]
  rfl

/-- The line of a DMA write reads back as it: three words, the two bytes in hexadecimal. -/
theorem parseLine_dmawr (s : Side) (a : RxAddr) (d : Byte) :
    parseLine (textOf (.dmawr s a d)) = some [.dmawr s a d] := by
  have htoks : lex (.plain []) (sideText s ++ [',', ' '] ++ hexByte a ++ [',', ' '] ++ hexByte d) =
      [.word (sideText s), .comma, .word (hexByte a), .comma, .word (hexByte d)] := by
    simp only [List.append_assoc, List.cons_append, List.nil_append]
    rw [lex_word_comma (isWord_sideText s), lex_word_comma (isWord_hexByte a), lex_word_end (isWord_hexByte d)]
  rw [textOf, parseLine_oneOperand, htoks]
  simp only [groups, line?, addrTok?, dataTok?, sideTok_sideText, byteNumber_hexByte]

/-- The line of a legal result code reads back as it: one line per code. -/
theorem parseLine_enable (fc : BitVec 4) (h : fcLegal fc = true) :
    parseLine (textOf (.enable fc)) = some [.enable fc] := by
  revert fc; decide

/-- Settles O6: the line is cut into the words it was written from, and each operand reads back. -/
theorem traceLineReadsBack : Obligations.TraceLineReadsBack := by
  intro i hwf
  cases i with
  | reset => decide
  | enable fc => exact parseLine_enable fc hwf
  | dmawr s a d => exact parseLine_dmawr s a d
  | txissue s e => cases s <;> cases e <;> decide
  | rxhalf s => exact parseLine_side .rxhalf .rxhalf (fun _ => rfl) s
  | rxfull s => exact parseLine_side .rxfull .rxfull (fun _ => rfl) s
  | txdone s => exact parseLine_side .txdone .txdone (fun _ => rfl) s
  | ntake s => exact parseLine_side .ntake .ntake (fun _ => rfl) s
  | rstep s => exact parseLine_side .rstep .rstep (fun _ => rfl) s
  | txdefer s => exact parseLine_side .txdefer .txdefer (fun _ => rfl) s

end Machine
end Sys2Proof
end

section
/-! Enabling (44_sequencer_and_system.md R166): where an operation is refused, where it completes, and the one fault. -/

namespace Sys2Proof
namespace Machine

variable {σ τ : State} {i : Instr} {f : Fault}

/-! ## Refusal -/

/-- An operation of which a guard is the only refusal is refused exactly where the guard's condition fails. -/
theorem refused_iff_of_guard {g : Option Refusal} {o : Host.Outcome State Fault Refusal}
    (he : exec i σ = whenEnabled g o) (ho : ∀ r, o ≠ .refused r) (hg : g = none ↔ Enabled i σ) :
    Refused i σ ↔ ¬ Enabled i σ := by
  refine ⟨fun ⟨r, hr⟩ hen => ?_, fun hen => refused_of_guard he (mt hg.1 hen)⟩
  rw [he, hg.2 hen] at hr
  exact ho r hr

/-- Settles O9: each operation's guard is its row of the table, and behind it nothing is refused. -/
theorem refusedExactlyWhenNotEnabled : Obligations.RefusedExactlyWhenNotEnabled := by
  intro i σ hwf
  cases i with
  | reset => exact ⟨fun ⟨_, hr⟩ => (nomatch hr), fun h => absurd trivial h⟩
  | enable fc =>
    refine refused_iff_of_guard rfl (fun r => ?_) (guardEnable_none_iff σ)
    rw [if_pos (show fcLegal fc = true from hwf)]
    split_ifs <;> nofun
  | dmawr s a d => exact refused_iff_of_guard rfl nofun (guardRun_none_iff σ)
  | rxhalf s => exact refused_iff_of_guard rfl nofun (guardRun_none_iff σ)
  | rxfull s => exact refused_iff_of_guard rfl nofun (guardRun_none_iff σ)
  | txdone s => exact refused_iff_of_guard rfl nofun (guardRun_none_iff σ)
  | ntake s => exact refused_iff_of_guard rfl nofun (guardNtake_none_iff σ s)
  | rstep s => exact refused_iff_of_guard rfl (fun r => by split_ifs <;> nofun) (guardRstep_none_iff σ s)
  | txissue s e => exact refused_iff_of_guard rfl nofun (guardTxissue_none_iff σ s e)
  | txdefer s => exact refused_iff_of_guard rfl nofun (guardTxdefer_none_iff σ s)

/-- An operation that takes a step is enabled. -/
theorem enabled_of_next (h : exec i σ = .next τ) : Enabled i σ := by
  cases i with
  | reset => trivial
  | enable fc => exact ((execEnable_next_iff σ τ fc).1 h).1
  | dmawr s a d => exact ((execDmawr_next_iff σ τ s a d).1 h).1
  | rxhalf s => exact ((execRxhalf_next_iff σ τ s).1 h).1
  | rxfull s => exact ((execRxfull_next_iff σ τ s).1 h).1
  | txdone s => exact ((execTxdone_next_iff σ τ s).1 h).1
  | ntake s => exact ((execNtake_next_iff σ τ s).1 h).1
  | rstep s => exact ((execRstep_next_iff σ τ s).1 h).1
  | txissue s e => exact ((execTxissue_next_iff σ τ s e).1 h).1
  | txdefer s => exact ((execTxdefer_next_iff σ τ s).1 h).1

/-- An enabled operation but `RESET` and `ENABLE` finds `MODE = RUN`. -/
theorem mode_of_enabled (h : Enabled i σ) (hr : i ≠ .reset) (he : ∀ fc, i ≠ .enable fc) : σ.mode = .run := by
  cases i with
  | reset => exact absurd rfl hr
  | enable fc => exact absurd rfl (he fc)
  | dmawr _ _ _ | rxhalf _ | rxfull _ | txdone _ => exact h
  | ntake _ | rstep _ | txissue _ _ | txdefer _ => exact h.1

/-- No enabled operation but `RESET` finds `MODE = FATAL`. -/
theorem mode_ne_fatal_of_enabled (h : Enabled i σ) (hr : i ≠ .reset) : σ.mode ≠ .fatal := by
  by_cases he : ∃ fc, i = .enable fc
  · obtain ⟨fc, rfl⟩ := he
    rw [show σ.mode = .off from h]; decide
  · rw [mode_of_enabled h hr fun fc hfc => he ⟨fc, hfc⟩]; decide

/-- Settles O37: in `FATAL` the row of no other operation holds. -/
theorem fatalRefusesAllButReset : Obligations.FatalRefusesAllButReset :=
  fun σ i hm hwf hr => (refusedExactlyWhenNotEnabled i σ hwf).2 fun hen => mode_ne_fatal_of_enabled hen hr hm

/-- Settles O38: in `OFF` the row of no other operation holds. -/
theorem offRefusesAllButEnableAndReset : Obligations.OffRefusesAllButEnableAndReset := by
  intro σ i hm hr he
  have hwf : i.wf = true := by
    cases i with
    | enable fc => exact absurd rfl (he fc)
    | _ => rfl
  refine (refusedExactlyWhenNotEnabled i σ hwf).2 fun hen => ?_
  rw [mode_of_enabled hen hr he] at hm
  cases hm

/-! ## Completion -/

/-- Settles O10: the enabled meaning of each operation is a next state, of `RSTEP` with the count in range. -/
theorem enabledOperationsComplete : Obligations.EnabledOperationsComplete := by
  intro i σ hwf hen hcnt
  cases i with
  | reset => exact ⟨_, rfl⟩
  | enable fc => exact ⟨_, (execEnable_next_iff σ _ fc).2 ⟨hen, hwf, rfl⟩⟩
  | dmawr s a d => exact ⟨_, (execDmawr_next_iff σ _ s a d).2 ⟨hen, rfl⟩⟩
  | rxhalf s => exact ⟨_, (execRxhalf_next_iff σ _ s).2 ⟨hen, rfl⟩⟩
  | rxfull s => exact ⟨_, (execRxfull_next_iff σ _ s).2 ⟨hen, rfl⟩⟩
  | txdone s => exact ⟨_, (execTxdone_next_iff σ _ s).2 ⟨hen, rfl⟩⟩
  | ntake s => exact ⟨_, (execNtake_next_iff σ _ s).2 ⟨hen, rfl⟩⟩
  | rstep s => exact ⟨_, execRstep_of_scan σ s hen.1 hen.2 (hcnt s)⟩
  | txissue s e => exact ⟨_, (execTxissue_next_iff σ _ s e).2 ⟨hen, rfl⟩⟩
  | txdefer s => exact ⟨_, (execTxdefer_next_iff σ _ s).2 ⟨hen, rfl⟩⟩

/-! ## The fault -/

theorem ne_fault_of_guard {g : Option Refusal} {o : Host.Outcome State Fault Refusal}
    (he : exec i σ = whenEnabled g o) (ho : o ≠ .fault f) : exec i σ ≠ .fault f := fun h =>
  ho ((whenEnabled_fault_iff g o f).1 (he ▸ h)).2

/-- Only `RSTEP` faults: where it is enabled, has a byte to append and no room for it. -/
theorem exec_rstep_fault_iff (s : Side) : exec (.rstep s) σ = .fault f ↔
    f = .workingBufferOverrun ∧ Enabled (.rstep s) σ ∧ Config.L ≤ (σ.side s).cnt.toNat ∧ scanAppends σ s = true := by
  show execRstep s σ = _ ↔ _
  unfold execRstep
  rw [whenEnabled_fault_iff, guardRstep_none_iff]
  by_cases hc : (scanAppends σ s && decide (Config.L ≤ (σ.side s).cnt.toNat)) = true
  · rw [if_pos hc]
    simp only [Bool.and_eq_true, decide_eq_true_eq] at hc
    cases f
    simp [hc]
  · rw [if_neg hc]
    simp only [Bool.and_eq_true, decide_eq_true_eq] at hc
    simp only [reduceCtorEq, and_false, false_iff]
    tauto

theorem rstep_of_exec_fault (h : exec i σ = .fault f) : ∃ s, i = .rstep s := by
  cases i with
  | rstep s => exact ⟨s, rfl⟩
  | reset => cases h
  | enable fc =>
    refine absurd h (ne_fault_of_guard rfl ?_)
    split_ifs <;> nofun
  | dmawr _ _ _ | rxhalf _ | rxfull _ | txdone _ | ntake _ | txissue _ _ | txdefer _ =>
    exact absurd h (ne_fault_of_guard rfl nofun)

/-- Settles O11: the statement's append condition is the model's append test. -/
theorem faultExactlyOnACountOutOfRange : Obligations.FaultExactlyOnACountOutOfRange := by
  intro i σ f
  have happ : ∀ s, (rxRead σ s (windowAddr (σ.side s).sh (σ.side s).idx) ≠ 0 ∨
      ((σ.side s).idx ≠ 0 ∧ rxRead σ s (windowAddr (σ.side s).sh ((σ.side s).idx - 1)) ≠ 0)) ↔
      scanAppends σ s = true := fun s => by
    have hpos : (σ.side s).idx ≠ 0 ↔ 0 < (σ.side s).idx.toNat := by
      rw [Nat.pos_iff_ne_zero, ne_eq, ne_eq, ← BitVec.toNat_inj]; rfl
    rw [scanAppends_iff, hpos]
  constructor
  · intro h
    obtain ⟨s, rfl⟩ := rstep_of_exec_fault h
    obtain ⟨hf, hen, hcnt, ha⟩ := (exec_rstep_fault_iff s).1 h
    exact ⟨hf, s, rfl, hen, hcnt, (happ s).2 ha⟩
  · rintro ⟨hf, s, rfl, hen, hcnt, ha⟩
    exact (exec_rstep_fault_iff s).2 ⟨hf, hen, hcnt, (happ s).1 ha⟩

end Machine
end Sys2Proof
end

section
/-! The operations one by one: what each leaves and that it is taken where it is enabled. -/

namespace Sys2Proof
namespace Machine

variable {σ τ : State} {s u : Side}

/-! ## `DMAWR`, `RXHALF`, `RXFULL`, `NTAKE` (40_receive_and_notifier.md) -/

@[simp] theorem rxWrite_side_same (a : RxAddr) (d : Byte) : (rxWrite σ s a d).side s =
    { σ.side s with rxbuf := memWrite (σ.side s).rxbuf a.toNat d } := by
  rw [rxWrite, setSide_side_same]

@[simp] theorem rxWrite_side_peer (a : RxAddr) (d : Byte) : (rxWrite σ s a d).side (peer s) = σ.side (peer s) := by
  rw [rxWrite, setSide_side_peer]

@[simp] theorem nPost_mode (v : Half) : (nPost σ s v).mode = σ.mode := setSide_mode _ _ _

@[simp] theorem nPost_draws (v : Half) : (nPost σ s v).draws = σ.draws := setSide_draws _ _ _

/-- A write leaves every byte but the one at its address of its side. -/
theorem rxRead_rxWrite_of_ne {a b : RxAddr} (d : Byte) (h : u ≠ s ∨ b ≠ a) :
    rxRead (rxWrite σ s a d) u b = rxRead σ u b := by
  by_cases hu : u = s
  · subst hu
    exact rxRead_rxWrite_of_addr_ne σ u a b d (h.resolve_left fun hn => hn rfl)
  · exact rxRead_rxWrite_of_side_ne σ s u a b d hu

/-- Settles O12: the next state is the written one, and a write changes one byte of one buffer. -/
theorem dmaWriteStoresOneByte : Obligations.DmaWriteStoresOneByte := by
  intro σ s a d hm
  refine ⟨rxWrite σ s a d, (execDmawr_next_iff σ _ s a d).2 ⟨hm, rfl⟩, rxRead_rxWrite_same σ s a d,
    fun u b h => rxRead_rxWrite_of_ne d h, fun u => ?_, ?_⟩
  · rcases eq_or_eq_peer s u with rfl | rfl
    · rw [rxWrite_side_same]
    · rw [rxWrite_side_peer]
  · simp [rxWrite]

/-- Settles O13: each event is its post. -/
theorem completionEventsPost : Obligations.CompletionEventsPost :=
  fun σ s hm => ⟨(execRxhalf_next_iff σ _ s).2 ⟨hm, rfl⟩, (execRxfull_next_iff σ _ s).2 ⟨hm, rfl⟩⟩

/-- Settles O16: the next state of an enabled take is the start of the pass. -/
theorem notificationTakeStartsThePass : Obligations.NotificationTakeStartsThePass :=
  fun σ s hm hp hv => (execNtake_next_iff σ _ s).2 ⟨⟨hm, hp, hv⟩, takeAndStart_eq σ s⟩

/-- A window address as a number. -/
theorem windowAddr_toNat (h : Half) (i : BitVec 7) : (windowAddr h i).toNat = Config.H * h.toNat + i.toNat := by
  rw [windowAddr, BitVec.toNat_append, ← Nat.shiftLeft_add_eq_or_of_lt i.isLt, Nat.shiftLeft_eq, Nat.mul_comm]

/-- A window lies in its own half. -/
theorem halfOf_windowAddr (h : Half) (i : BitVec 7) : halfOf (windowAddr h i) = h := by
  revert h i; decide

/-- Settles O17: the take stores the value in `SH`, and a window address is its concatenation with the index. -/
theorem takenValueSelectsTheWindow : Obligations.TakenValueSelectsTheWindow := by
  intro σ τ s h
  obtain ⟨-, rfl⟩ := (execNtake_next_iff σ τ s).1 h
  have hsh : ((takeAndStart s σ).side s).sh = (σ.side s).nval := by rw [takeAndStart_eq, setSide_side_same]
  rw [hsh]
  exact ⟨rfl, fun i => ⟨windowAddr_toNat _ i, halfOf_windowAddr _ i⟩⟩

/-! ## `RSTEP` (41_reassembler.md R126, R127) -/

theorem isLast_iff (i : BitVec 7) : isLast i = true ↔ i.toNat = Config.H - 1 := decide_eq_true_iff

theorem scanOwn_of_last (h : (σ.side s).idx.toNat = Config.H - 1) :
    (scanOwn σ s).ph = .idle ∧ (scanOwn σ s).idx = (σ.side s).idx := by
  unfold scanOwn
  rw [if_pos ((isLast_iff _).2 h)]
  exact ⟨rfl, rfl⟩

theorem scanOwn_of_not_last (h : (σ.side s).idx.toNat < Config.H - 1) :
    (scanOwn σ s).ph = (σ.side s).ph ∧ (scanOwn σ s).idx.toNat = (σ.side s).idx.toNat + 1 := by
  unfold scanOwn
  rw [if_neg (mt (isLast_iff _).1 (by omega))]
  refine ⟨rfl, ?_⟩
  simp only [Config.H] at h
  show ((σ.side s).idx + 1).toNat = _
  bv_omega

/-- Settles O21: the two cases of the advance. -/
theorem scanAdvancesOrEnds : Obligations.ScanAdvancesOrEnds := by
  intro σ s hm hp hlt
  refine ⟨scanStep σ s, execRstep_of_scan σ s hm hp hlt, ?_⟩
  rw [scanStep_side_same]
  exact ⟨fun h => ⟨(scanOwn_of_not_last h).1.trans hp, (scanOwn_of_not_last h).2⟩, scanOwn_of_last⟩

/-- A step of a pass writes of its own side the working buffer, the count, the index and the phase only. -/
theorem scanOwn_frame : scanOwn σ s = { σ.side s with
    wb := (scanOwn σ s).wb, cnt := (scanOwn σ s).cnt, idx := (scanOwn σ s).idx, ph := (scanOwn σ s).ph } := by
  unfold scanOwn; split <;> rfl

/-- A step of a pass writes of the peer's side the queue's slots, tail and count only. -/
theorem scanPeer_frame : scanPeer σ s = { σ.side (peer s) with
    qmem := (scanPeer σ s).qmem, qtail := (scanPeer σ s).qtail, qcnt := (scanPeer σ s).qcnt } := by
  unfold scanPeer flushed; split_ifs <;> rfl

theorem scanStep_rxbuf : ((scanStep σ s).side u).rxbuf = (σ.side u).rxbuf := by
  rcases eq_or_eq_peer s u with rfl | rfl
  · rw [scanStep_side_same, scanOwn_frame]
  · rw [scanStep_side_peer, scanPeer_frame]

theorem wbAfter_getElem_of_ne {k : Fin Config.L} (h : k.val ≠ (σ.side s).cnt.toNat) :
    (wbAfter σ s)[k] = (σ.side s).wb[k] := by
  unfold wbAfter
  split
  · rw [Fin.getElem_fin, Vector.getElem_setIfInBounds, if_neg h.symm, Fin.getElem_fin]
  · rfl

theorem scanPeer_slot_of_ne {j : Fin Config.M} (h : j.val ≠ (σ.side (peer s)).qtail.toNat) :
    (scanPeer σ s).qmem[j] = (σ.side (peer s)).qmem[j] := by
  unfold scanPeer flushed
  split_ifs
  · exact (slot_setIfInBounds _ _ _ j).trans (if_neg h)
  · rfl
  · rfl

/-- Settles O22: the frames of the two sides, and that neither receive buffer's list is written. -/
theorem scanLeavesTheRest : Obligations.ScanLeavesTheRest := by
  intro σ τ s h
  obtain ⟨-, -, rfl⟩ := (execRstep_next_iff σ τ s).1 h
  rw [scanStep_side_same, scanStep_side_peer, scanOwn_wb]
  refine ⟨?_, scanPeer_frame, fun k => wbAfter_getElem_of_ne, fun j => scanPeer_slot_of_ne,
    fun u a => rxRead_congr scanStep_rxbuf (scanStep_draws σ s) a, ?_⟩
  · rw [← scanOwn_wb]; exact scanOwn_frame
  · simp

/-! ## `TXISSUE` (43_transmit_flow.md R151, R154) -/

theorem exec_txissue_of_enabled (e : Answer) (h : Enabled (.txissue s e) σ) :
    exec (.txissue s e) σ = .next (afterAnswer s e (startTransmit s σ)) :=
  (execTxissue_next_iff σ _ s e).2 ⟨h, rfl⟩

/-- Settles O28: the head frame is the head slot's, and the port gets it after the events before. -/
theorem transmitIssueStartsTheOldestFrame : Obligations.TransmitIssueStartsTheOldestFrame := by
  intro σ s hm hp hq hf c f
  rw [exec_txissue_of_enabled .ok ⟨hm, hp, hq, hf⟩, afterAnswer, startTransmit_eq, output, setSide_outs,
    qHeadFrame_eq]

/-- Settles O29: the answer `error` adds the fatal condition to what `ok` leaves. -/
theorem transmitErrorIsFatalAfterThePop : Obligations.TransmitErrorIsFatalAfterThePop :=
  fun σ s hm hp hq hf => ⟨startTransmit s σ, exec_txissue_of_enabled .ok ⟨hm, hp, hq, hf⟩,
    exec_txissue_of_enabled .error ⟨hm, hp, hq, hf⟩⟩

/-! ## `ENABLE`, `RESET` (44_sequencer_and_system.md R167, R168) -/

/-- Settles O34: the next state is the initialised one. -/
theorem enableStartsBothSides : Obligations.EnableStartsBothSides := by
  intro σ hm
  refine ⟨initialise σ, (execEnable_next_iff σ _ 0).2 ⟨hm, rfl, rfl⟩, initialise_mode σ, initialise_fcause σ,
    initialise_fside σ, initialise_side σ, initialise_outs σ, initialise_trace σ, initialise_draws σ⟩

/-- A failed `ENABLE` in `OFF` raises the cause and the side of its code. -/
theorem exec_enable_failed {fc : BitVec 4} (hm : σ.mode = .off) (hl : fcLegal fc = true ∧ fc ≠ 0) :
    exec (.enable fc) σ = .next (raiseFatal σ (fcCause fc) (fcSide fc)) :=
  (execEnable_next_iff σ _ fc).2 ⟨hm, hl.1, by rw [if_neg hl.2]⟩

/-- Settles O35: each of the eight codes is legal, is not 0, and names its cause and side. -/
theorem failedEnableIsFatal : Obligations.FailedEnableIsFatal := by
  intro σ t hm
  cases t <;> exact ⟨exec_enable_failed hm (by decide), exec_enable_failed hm (by decide),
    exec_enable_failed hm (by decide), exec_enable_failed hm (by decide)⟩

/-- A drawn byte counter is below `L`. -/
theorem resetSide_cnt_lt (n : Nat) (s : Side) : (resetSide n s).cnt.toNat < Config.L := by
  show (0#1 ++ Config.freeCnt n s).toNat < _
  rw [BitVec.toNat_append]
  simpa using (Config.freeCnt n s).isLt

/-- Settles O36: the fields of the side after a reset. -/
theorem resetLeavesTheSpecifiedValues : Obligations.ResetLeavesTheSpecifiedValues := by
  intro σ
  refine ⟨resetBlock σ, rfl, rfl, rfl, rfl, fun s => ?_, rfl, rfl⟩
  rw [resetBlock_side]
  exact ⟨rfl, rfl, rfl, rfl, rfl, rfl, Nat.le_pred_of_lt (resetSide_cnt_lt _ s)⟩

/-! ## Both wake sources waiting (44_sequencer_and_system.md R170) -/

theorem startTransmit_nv : ((startTransmit s σ).side s).nv = (σ.side s).nv := by
  rw [startTransmit_eq, output_side, setSide_side_same]

/-- Settles O48: the take leaves the queue's count, the transmission and its deferral leave the slot. -/
theorem eitherWakeSourceMayGoFirst : Obligations.EitherWakeSourceMayGoFirst := by
  intro σ s e hm hp hv hq
  refine ⟨⟨_, (execNtake_next_iff σ _ s).2 ⟨⟨hm, hp, hv⟩, rfl⟩, ?_⟩,
    fun hf => ⟨_, exec_txissue_of_enabled e ⟨hm, hp, hq, hf⟩, ?_⟩,
    fun hf => ⟨σ, exec_txdefer_of_enabled ⟨hm, hp, hq, hf⟩, hv⟩⟩
  · rw [takeAndStart_eq, setSide_side_same]
  · rw [afterAnswer_side, startTransmit_nv, hv]

end Machine
end Sys2Proof
end

section
/-! What an accepted operation can do to one side, said once: the statements about a side follow case by case. -/

namespace Sys2Proof
namespace Machine

variable {σ τ : State} {s u : Side} {i : Instr}

/-- What an operation accepted in `σ` can leave as the context of side `u`: one case per operation that writes it, and
the context as it was. -/
inductive SideMove (σ : State) (u : Side) : Instr → SideState → Prop where
  | reset : SideMove σ u .reset (resetSide (σ.draws + 1) u)
  | init (hm : σ.mode = .off) : SideMove σ u (.enable 0) (initSide (σ.side u))
  | dma (a : RxAddr) (d : Byte) :
      SideMove σ u (.dmawr u a d) { σ.side u with rxbuf := memWrite (σ.side u).rxbuf a.toNat d }
  | half : SideMove σ u (.rxhalf u) { σ.side u with nv := true, nval := 0 }
  | full : SideMove σ u (.rxfull u) { σ.side u with nv := true, nval := 1 }
  | done : SideMove σ u (.txdone u) { σ.side u with txf := false }
  | take (hen : Enabled (.ntake u) σ) : SideMove σ u (.ntake u) { σ.side u with
      nv := false, ph := .scan, sh := (σ.side u).nval, idx := 0, cnt := 0, wb := zeroFrame }
  | scan (hen : Enabled (.rstep u) σ) (hroom : ¬ (scanAppends σ u = true ∧ Config.L ≤ (σ.side u).cnt.toNat)) :
      SideMove σ u (.rstep u) (scanOwn σ u)
  | fill (hen : Enabled (.rstep (peer u)) σ) :
      SideMove σ u (.rstep (peer u)) (scanPeer σ (peer u))
  | issue (e : Answer) (hen : Enabled (.txissue u e) σ) : SideMove σ u (.txissue u e) { σ.side u with
      qhead := (σ.side u).qhead + 1, qcnt := (σ.side u).qcnt - 1, txf := true, txbuf := qHeadFrame (σ.side u) }
  | keep (i : Instr) : SideMove σ u i (σ.side u)

/-- Replacing the context of side `s` by a move of it is a move of each side. -/
theorem sideMove_setSide {c : SideState} (h : SideMove σ s i c) (u : Side) :
    SideMove σ u i ((σ.setSide s c).side u) := by
  rcases eq_or_eq_peer s u with rfl | rfl
  · rwa [setSide_side_same]
  · rw [setSide_side_peer]; exact .keep i

/-- Every accepted operation makes one of the moves on each side. -/
theorem exec_sideMove (h : exec i σ = .next τ) (u : Side) : SideMove σ u i (τ.side u) := by
  rcases exec_next_cases h with ⟨rfl, rfl⟩ | ⟨rfl, hm, rfl⟩ | ⟨fc, rfl, -, -, -, rfl⟩ | ⟨s, a, d, rfl, -, rfl⟩ |
    ⟨s, rfl, -, rfl⟩ | ⟨s, rfl, -, rfl⟩ | ⟨s, rfl, -, rfl⟩ | ⟨s, rfl, hen, rfl⟩ | ⟨s, rfl, hen, hroom, rfl⟩ |
    ⟨s, e, rfl, hen, rfl⟩ | ⟨s, rfl, -, rfl⟩
  · rw [resetBlock_side]; exact .reset
  · rw [initialise_side]; exact .init hm
  · rw [raiseFatal_side]; exact .keep _
  · exact sideMove_setSide (.dma a d) u
  · exact sideMove_setSide .half u
  · exact sideMove_setSide .full u
  · exact sideMove_setSide .done u
  · rw [takeAndStart_eq]; exact sideMove_setSide (.take hen) u
  · rcases eq_or_eq_peer s u with rfl | rfl
    · rw [scanStep_side_same]; exact .scan hen hroom
    · rw [scanStep_side_peer]
      have hfill := SideMove.fill (σ := σ) (u := peer s) (by rwa [peer_peer])
      rwa [peer_peer] at hfill
  · rw [afterAnswer_side, startTransmit_eq, output_side]; exact sideMove_setSide (.issue e hen) u
  · exact .keep _

/-! ## The transmit flag and buffer (43_transmit_flow.md R156) -/

/-- Settles O32: the flag is in the row of `TXISSUE`, and of the moves only those of the three operations clear it. -/
theorem oneTransmissionOutstanding : Obligations.OneTransmissionOutstanding := by
  intro σ s hf
  refine ⟨fun e => ?_, fun i τ h hdone hreset henable => ?_⟩
  · refine (refusedExactlyWhenNotEnabled _ σ rfl).2 fun ⟨_, _, _, hclear⟩ => ?_
    rw [hf] at hclear; cases hclear
  · have hmove := exec_sideMove h s
    generalize τ.side s = c at hmove ⊢
    cases hmove with
    | reset => exact absurd rfl hreset
    | init => exact absurd rfl (henable 0)
    | done => exact absurd rfl hdone
    | scan => rw [scanOwn_frame]; exact hf
    | fill => rw [scanPeer_frame, peer_peer]; exact hf
    | issue => rfl
    | dma | half | full | take | keep => exact hf

/-- Settles O33: only `TXISSUE` and `RESET` write the buffer, and the first needs the flag clear. -/
theorem transmitBufferStableWhileOutstanding : Obligations.TransmitBufferStableWhileOutstanding := by
  intro σ τ s i hf h hreset
  unfold txPort
  have hmove := exec_sideMove h s
  generalize τ.side s = c at hmove ⊢
  cases hmove with
  | reset => exact absurd rfl hreset
  | scan => rw [scanOwn_frame]
  | fill => rw [scanPeer_frame, peer_peer]
  | issue e hen =>
    obtain ⟨-, -, -, hclear⟩ := hen
    rw [hf] at hclear; cases hclear
  | init | dma | half | full | done | take | keep => rfl

/-! ## The pass and the slot (40_receive_and_notifier.md R110, 41_reassembler.md) -/

/-- During a pass in `RUN` only its own step and a reset write the pass's registers. -/
theorem pass_registers_kept (hm : σ.mode = .run) (hp : (σ.side s).ph = .scan) (h : exec i σ = .next τ)
    (hstep : i ≠ .rstep s) (hreset : i ≠ .reset) :
    (τ.side s).ph = .scan ∧ (τ.side s).sh = (σ.side s).sh ∧ (τ.side s).idx = (σ.side s).idx ∧
      (τ.side s).cnt = (σ.side s).cnt ∧ (τ.side s).wb = (σ.side s).wb := by
  have hmove := exec_sideMove h s
  generalize τ.side s = c at hmove ⊢
  cases hmove with
  | reset => exact absurd rfl hreset
  | scan => exact absurd rfl hstep
  | init hoff => rw [hm] at hoff; cases hoff
  | take hen => rw [hen.2.1] at hp; cases hp
  | fill => rw [scanPeer_frame, peer_peer]; exact ⟨hp, rfl, rfl, rfl, rfl⟩
  | dma | half | full | done | issue | keep => exact ⟨hp, rfl, rfl, rfl, rfl⟩

/-- Settles O46: the phase is in the three rows, and only the pass's own step and a reset write its registers. -/
theorem nothingCutsAPassShort : Obligations.NothingCutsAPassShort := by
  intro σ s hm hp
  have hidle : ¬ (σ.side s).ph = .idle := by rw [hp]; decide
  exact ⟨(refusedExactlyWhenNotEnabled _ σ rfl).2 fun hen => hidle hen.2.1,
    fun e => (refusedExactlyWhenNotEnabled _ σ rfl).2 fun hen => hidle hen.2.1,
    (refusedExactlyWhenNotEnabled _ σ rfl).2 fun hen => hidle hen.2.1,
    fun i τ h hstep hreset => pass_registers_kept hm hp h hstep hreset⟩

/-- Settles O47: in `RUN` only a take and a reset empty the slot, and only a post writes its value. -/
theorem pendingNotificationIsKept : Obligations.PendingNotificationIsKept := by
  intro σ τ s i hm hv h htake hreset
  have hmove := exec_sideMove h s
  generalize τ.side s = c at hmove ⊢
  cases hmove with
  | reset => exact absurd rfl hreset
  | take => exact absurd rfl htake
  | init hoff => rw [hm] at hoff; cases hoff
  | half => exact ⟨rfl, fun hne => absurd rfl hne⟩
  | full => exact ⟨rfl, fun _ hne => absurd rfl hne⟩
  | scan => rw [scanOwn_frame]; exact ⟨hv, fun _ _ => rfl⟩
  | fill => rw [scanPeer_frame, peer_peer]; exact ⟨hv, fun _ _ => rfl⟩
  | dma | done | issue | keep => exact ⟨hv, fun _ _ => rfl⟩

/-! ## The receive buffer and the other elements (10_state.md R20, 20_memory.md R52) -/

/-- Only a reset draws anew. -/
theorem exec_draws (h : exec i σ = .next τ) (hreset : i ≠ .reset) : τ.draws = σ.draws := by
  rcases exec_next_cases h with ⟨rfl, -⟩ | ⟨rfl, -, rfl⟩ | ⟨fc, rfl, -, -, -, rfl⟩ | ⟨s, a, d, rfl, -, rfl⟩ |
    ⟨s, rfl, -, rfl⟩ | ⟨s, rfl, -, rfl⟩ | ⟨s, rfl, -, rfl⟩ | ⟨s, rfl, -, rfl⟩ | ⟨s, rfl, -, -, rfl⟩ |
    ⟨s, e, rfl, -, rfl⟩ | ⟨s, rfl, -, rfl⟩
  · exact absurd rfl hreset
  · exact initialise_draws σ
  · exact raiseFatal_draws _ _ _
  · exact setSide_draws _ _ _
  · exact setSide_draws _ _ _
  · exact setSide_draws _ _ _
  · exact setSide_draws _ _ _
  · rw [takeAndStart_eq]; exact setSide_draws _ _ _
  · exact scanStep_draws σ s
  · cases e <;> simp [afterAnswer, startTransmit_eq]
  · rfl

/-- Settles O41: of the moves only a DMA write and a reset write the list, and only a reset draws anew. -/
theorem onlyDmaWritesTheReceiveBuffer : Obligations.OnlyDmaWritesTheReceiveBuffer := by
  intro σ τ i u a h hreset hdma
  unfold rxRead
  rw [exec_draws h hreset]
  congr 1
  have hmove := exec_sideMove h u
  generalize τ.side u = c at hmove ⊢
  cases hmove with
  | reset => exact absurd rfl hreset
  | dma b d =>
    refine memRead_memWrite_of_ne _ _ _ _ fun hab => hdma d ?_
    rw [BitVec.eq_of_toNat_eq hab]
  | scan => rw [scanOwn_frame]
  | fill => rw [scanPeer_frame, peer_peer]
  | init | half | full | done | take | issue | keep => rfl

/-- Only `TXISSUE`, and `ENABLE` with the code 0, drive a port; a reset keeps the log. -/
theorem exec_outs (h : exec i σ = .next τ) :
    τ.outs = σ.outs ∨ i = .enable 0 ∨ ∃ s e, i = .txissue s e := by
  rcases exec_next_cases h with ⟨rfl, rfl⟩ | ⟨rfl, -, rfl⟩ | ⟨fc, rfl, -, -, -, rfl⟩ | ⟨s, a, d, rfl, -, rfl⟩ |
    ⟨s, rfl, -, rfl⟩ | ⟨s, rfl, -, rfl⟩ | ⟨s, rfl, -, rfl⟩ | ⟨s, rfl, -, rfl⟩ | ⟨s, rfl, -, -, rfl⟩ |
    ⟨s, e, rfl, -, rfl⟩ | ⟨s, rfl, -, rfl⟩
  · exact .inl rfl
  · exact .inr (.inl rfl)
  · exact .inl rfl
  · exact .inl (setSide_outs _ _ _)
  · exact .inl (setSide_outs _ _ _)
  · exact .inl (setSide_outs _ _ _)
  · exact .inl (setSide_outs _ _ _)
  · rw [takeAndStart_eq]; exact .inl (setSide_outs _ _ _)
  · exact .inl (scanStep_outs σ s)
  · exact .inr (.inr ⟨s, e, rfl⟩)
  · exact .inl rfl

/-- Settles O42: the elements each move writes, and the port log. -/
theorem elementsChangeOnlyByTheirWriters : Obligations.ElementsChangeOnlyByTheirWriters := by
  intro σ τ i u h hreset
  have houts : τ.outs ≠ σ.outs → i = .enable 0 ∨ ∃ s e, i = .txissue s e := (exec_outs h).resolve_left
  have hmove := exec_sideMove h u
  generalize τ.side u = c at hmove ⊢
  cases hmove with
  | reset => exact absurd rfl hreset
  | scan => rw [scanOwn_frame]; simpa using houts
  | fill => rw [scanPeer_frame, peer_peer]; simpa using houts
  | init => simp [initSide]
  | issue => simp
  | dma | half | full | done | take | keep => simpa using houts

/-! ## The mode (10_state.md section 2, 60_exceptions.md section 1) -/

/-- The mode an accepted operation leaves, with the cause and the side recorded. -/
theorem exec_mode_cases (h : exec i σ = .next τ) :
    (i = .reset ∧ τ = resetBlock σ) ∨
    (i = .enable 0 ∧ σ.mode = .off ∧ τ.mode = .run ∧ τ.fcause = σ.fcause ∧ τ.fside = σ.fside) ∨
    (∃ fc, i = .enable fc ∧ fc ≠ 0 ∧ fcLegal fc = true ∧ σ.mode = .off ∧
      τ.mode = .fatal ∧ τ.fcause = fcCause fc ∧ τ.fside = fcSide fc) ∨
    (∃ s, i = .txissue s .error ∧ σ.mode = .run ∧ τ.mode = .fatal ∧ τ.fcause = .txst ∧ τ.fside = s) ∨
    (σ.mode = .run ∧ τ.mode = .run ∧ τ.fcause = σ.fcause ∧ τ.fside = σ.fside) := by
  have kept : ∀ {s : Side} {c : SideState}, σ.mode = .run → (σ.setSide s c).mode = .run ∧
      (σ.setSide s c).fcause = σ.fcause ∧ (σ.setSide s c).fside = σ.fside := fun hm =>
    ⟨(setSide_mode _ _ _).trans hm, setSide_fcause _ _ _, setSide_fside _ _ _⟩
  rcases exec_next_cases h with ⟨rfl, rfl⟩ | ⟨rfl, hm, rfl⟩ | ⟨fc, rfl, h0, hl, hm, rfl⟩ | ⟨s, a, d, rfl, hm, rfl⟩ |
    ⟨s, rfl, hm, rfl⟩ | ⟨s, rfl, hm, rfl⟩ | ⟨s, rfl, hm, rfl⟩ | ⟨s, rfl, ⟨hm, -⟩, rfl⟩ | ⟨s, rfl, ⟨hm, -⟩, -, rfl⟩ |
    ⟨s, e, rfl, ⟨hm, -⟩, rfl⟩ | ⟨s, rfl, ⟨hm, -⟩, rfl⟩
  · exact .inl ⟨rfl, rfl⟩
  · exact .inr (.inl ⟨rfl, hm, rfl, rfl, rfl⟩)
  · exact .inr (.inr (.inl ⟨fc, rfl, h0, hl, hm, rfl, rfl, rfl⟩))
  · exact .inr (.inr (.inr (.inr ⟨hm, kept hm⟩)))
  · exact .inr (.inr (.inr (.inr ⟨hm, kept hm⟩)))
  · exact .inr (.inr (.inr (.inr ⟨hm, kept hm⟩)))
  · exact .inr (.inr (.inr (.inr ⟨hm, kept hm⟩)))
  · rw [takeAndStart_eq]; exact .inr (.inr (.inr (.inr ⟨hm, kept hm⟩)))
  · exact .inr (.inr (.inr (.inr ⟨hm, (scanStep_mode σ s).trans hm, scanStep_fcause σ s, scanStep_fside σ s⟩)))
  · cases e with
    | ok =>
      rw [afterAnswer, startTransmit_eq]; exact .inr (.inr (.inr (.inr ⟨hm, kept hm⟩)))
    | error => exact .inr (.inr (.inr (.inl ⟨s, rfl, hm, rfl, rfl, rfl⟩)))
  · exact .inr (.inr (.inr (.inr ⟨hm, hm, rfl, rfl⟩)))

/-- A legal result code other than 0 is its cause's code and its side. -/
theorem fc_codes {fc : BitVec 4} (hl : fcLegal fc = true) :
    (fcCause fc).code = fc.extractLsb' 0 3 ∧ sideCode (fcSide fc) = fc.extractLsb' 3 1 := by
  revert fc; decide

/-- Settles O39: of the mode's cases only these two end in `FATAL`. -/
theorem fatalOnlyFromEnableAndTransmitStart : Obligations.FatalOnlyFromEnableAndTransmitStart := by
  intro σ τ i h hfatal
  rcases exec_mode_cases h with ⟨-, rfl⟩ | ⟨-, -, hm, -⟩ | ⟨fc, rfl, h0, hl, -, -, hc, hs⟩ |
    ⟨s, rfl, -, -, hc, hs⟩ | ⟨-, hm, -⟩
  · cases hfatal
  · rw [hm] at hfatal; cases hfatal
  · rw [hc, hs]
    exact .inl ⟨fc, rfl, h0, hl, fc_codes hl⟩
  · exact .inr ⟨s, rfl, hc, hs⟩
  · rw [hm] at hfatal; cases hfatal

/-- Settles O40: the mode's cases, without the causes. -/
theorem modeMovesOnlyAsDrawn : Obligations.ModeMovesOnlyAsDrawn := by
  intro σ τ i h
  rcases exec_mode_cases h with ⟨rfl, rfl⟩ | ⟨rfl, hoff, hm, -⟩ | ⟨fc, rfl, -, -, hoff, hm, -⟩ |
    ⟨s, rfl, hrun, hm, -⟩ | ⟨hrun, hm, -⟩
  · exact .inl ⟨rfl, rfl⟩
  · exact .inr (.inl ⟨0, rfl, hoff, .inl hm⟩)
  · exact .inr (.inl ⟨fc, rfl, hoff, .inr hm⟩)
  · exact .inr (.inr (.inl ⟨s, .error, rfl, hrun, .inr hm⟩))
  · exact .inr (.inr (.inr ⟨hrun, hm⟩))

end Machine
end Sys2Proof
end

section
/-! The invariant of 10_state.md R39: every move keeps a side's part, and every step the whole. -/

namespace Sys2Proof
namespace Machine

variable {σ τ : State} {s u : Side} {i : Instr} {c d : SideState}

/-! ## One side -/

/-- A side's part of the invariant reads the queue's registers, the counters and the buffer only. -/
theorem SideInv.congr (hi : SideInv c) (hq : d.qcnt = c.qcnt ∧ d.qhead = c.qhead ∧ d.qtail = c.qtail)
    (hc : d.cnt.toNat < Config.L) (hm : d.rxbuf = c.rxbuf) : SideInv d where
  count_le := hq.1 ▸ hi.count_le
  tail_eq := by rw [hq.1, hq.2.1, hq.2.2]; exact hi.tail_eq
  cnt_lt := Nat.le_pred_of_lt hc
  idx_lt := Nat.le_pred_of_lt d.idx.isLt
  mem_wf := hm ▸ hi.mem_wf

/-- An empty queue with its pointers at slot 0 meets the queue's clauses. -/
theorem sideInv_of_empty (hq : c.qcnt = 0 ∧ c.qhead = 0 ∧ c.qtail = 0) (hc : c.cnt.toNat < Config.L)
    (hm : Memory.wf c.rxbuf = true) : SideInv c where
  count_le := by rw [hq.1]; decide
  tail_eq := by rw [hq.1, hq.2.1, hq.2.2]; decide
  cnt_lt := Nat.le_pred_of_lt hc
  idx_lt := Nat.le_pred_of_lt c.idx.isLt
  mem_wf := hm

theorem SideInv.cnt_lt_L (hi : SideInv c) : c.cnt.toNat < Config.L := Nat.lt_of_le_pred (by decide) hi.cnt_lt

/-- A step that does not fault leaves the count in range. -/
theorem scanOwn_cnt_lt (hlt : (σ.side s).cnt.toNat < Config.L) : (scanOwn σ s).cnt.toNat < Config.L := by
  have hle : (cntAfter σ s).toNat ≤ Config.L := by rw [cntAfter_toNat σ s hlt]; split <;> omega
  rw [scanOwn_cnt, cntLeft_toNat]
  split
  · decide
  · omega

/-- A flush keeps pointers and count in agreement. -/
theorem sideInv_flushed (hi : SideInv c) (f : Frame) : SideInv (flushed c f) := by
  unfold flushed
  split
  · next hlt =>
    refine ⟨?_, ?_, hi.cnt_lt, hi.idx_lt, hi.mem_wf⟩
    · show (c.qcnt + 1).toNat ≤ _
      rw [qcnt_add_one_toNat hlt]; omega
    · show (c.qtail + 1).toNat = (c.qhead.toNat + (c.qcnt + 1).toNat) % _
      rw [qcnt_add_one_toNat hlt, pointer_add_one_toNat, hi.tail_eq, Nat.mod_add_mod, Nat.add_assoc]
  · exact hi

/-- A pop keeps pointers and count in agreement. -/
theorem sideInv_pop (hi : SideInv c) (hq : 1 ≤ c.qcnt.toNat) (f : Frame) :
    SideInv { c with qhead := c.qhead + 1, qcnt := c.qcnt - 1, txf := true, txbuf := f } := by
  have hcnt := hi.count_le
  refine ⟨?_, ?_, hi.cnt_lt, hi.idx_lt, hi.mem_wf⟩
  · show (c.qcnt - 1).toNat ≤ _
    rw [qcnt_sub_one_toNat hq]; omega
  · show c.qtail.toNat = ((c.qhead + 1).toNat + (c.qcnt - 1).toNat) % _
    rw [qcnt_sub_one_toNat hq, pointer_add_one_toNat, hi.tail_eq, Nat.mod_add_mod,
      show c.qhead.toNat + 1 + (c.qcnt.toNat - 1) = c.qhead.toNat + c.qcnt.toNat by omega]

/-- Every move keeps a side's part of the invariant. -/
theorem sideMove_sideInv (hi : SideInv (σ.side u)) (hmove : SideMove σ u i c) : SideInv c := by
  cases hmove with
  | reset => exact sideInv_of_empty ⟨rfl, rfl, rfl⟩ (resetSide_cnt_lt _ u) (resetSide_memory_wf _ u)
  | init => exact sideInv_of_empty ⟨rfl, rfl, rfl⟩ hi.cnt_lt_L hi.mem_wf
  | dma a d => exact ⟨hi.count_le, hi.tail_eq, hi.cnt_lt, hi.idx_lt, memWrite_wf d (addr_lt a) hi.mem_wf⟩
  | take => exact hi.congr ⟨rfl, rfl, rfl⟩ (show (0 : BitVec 5).toNat < Config.L by decide) rfl
  | scan =>
    have hcnt := scanOwn_cnt_lt hi.cnt_lt_L
    rw [scanOwn_frame] at hcnt ⊢
    exact hi.congr ⟨rfl, rfl, rfl⟩ hcnt rfl
  | fill =>
    unfold scanPeer
    rw [peer_peer]
    split
    · exact sideInv_flushed hi _
    · exact hi
  | issue e hen => exact sideInv_pop hi hen.2.2.1 _
  | half | full | done => exact hi.congr ⟨rfl, rfl, rfl⟩ hi.cnt_lt_L rfl
  | keep => exact hi

/-- Every accepted operation keeps each side's part of the invariant, whatever the other side holds. -/
theorem exec_sideInv (hi : SideInv (σ.side u)) (h : exec i σ = .next τ) : SideInv (τ.side u) :=
  sideMove_sideInv hi (exec_sideMove h u)

/-! ## The whole state -/

theorem resetSide_sideOff (n : Nat) (s : Side) : SideOff (resetSide n s) := ⟨rfl, rfl, rfl, rfl⟩

/-- Every accepted operation keeps the invariant. -/
theorem exec_inv (hi : Inv σ) (h : exec i σ = .next τ) : Inv τ := by
  have hsides : ∀ u, SideInv (τ.side u) := fun u => exec_sideInv (hi.sides u) h
  rcases exec_mode_cases h with ⟨-, rfl⟩ | ⟨-, hoff, hm, hc, hs⟩ | ⟨fc, -, -, -, -, hm, -⟩ |
    ⟨s, -, -, hm, -⟩ | ⟨hrun, hm, hc, hs⟩
  · exact ⟨hsides, fun _ s => by rw [resetBlock_side]; exact resetSide_sideOff _ s, fun _ => ⟨rfl, rfl⟩⟩
  · refine ⟨hsides, fun h0 => (by rw [hm] at h0; cases h0), fun _ => ?_⟩
    rw [hc, hs]
    exact hi.no_cause (by rw [hoff]; decide)
  · exact ⟨hsides, fun h0 => (by rw [hm] at h0; cases h0), fun hne => absurd hm hne⟩
  · exact ⟨hsides, fun h0 => (by rw [hm] at h0; cases h0), fun hne => absurd hm hne⟩
  · refine ⟨hsides, fun h0 => (by rw [hm] at h0; cases h0), fun _ => ?_⟩
    rw [hc, hs]
    exact hi.no_cause (by rw [hrun]; decide)

/-- Taking a word from the trace keeps the invariant. -/
theorem inv_withTrace (hi : Inv σ) (tr : List Byte) : Inv { σ with trace := tr } where
  sides s := by rw [withTrace_side]; exact hi.sides s
  off_sides hm s := by rw [withTrace_side]; exact hi.off_sides hm s
  no_cause := hi.no_cause

/-- Settles O43: each clause is read off the values after reset. -/
theorem resetMeetsTheInvariant : Obligations.ResetMeetsTheInvariant where
  sides s := by cases s <;> exact sideInv_of_empty ⟨rfl, rfl, rfl⟩ (by decide) memory_nil_wf
  off_sides _ s := by cases s <;> exact ⟨rfl, rfl, rfl, rfl⟩
  no_cause _ := ⟨rfl, rfl⟩

/-- Settles O44: a step takes a word and runs its operation, and both keep the invariant. -/
theorem everyStepKeepsTheInvariant : Obligations.EveryStepKeepsTheInvariant := by
  intro σ τ hi h
  rcases step_cases σ with ⟨i, rest, hs⟩ | ⟨r, hs⟩
  · exact exec_inv (inv_withTrace hi rest) (hs ▸ h)
  · rw [hs] at h; cases h

/-- Settles O45: the fault needs a count of `L` or more, and the invariant keeps it below. -/
theorem invariantExcludesFaults : Obligations.InvariantExcludesFaults := by
  intro σ f hi h
  rcases step_cases σ with ⟨i, rest, hs⟩ | ⟨r, hs⟩
  · rw [hs] at h
    obtain ⟨s, rfl⟩ := rstep_of_exec_fault h
    obtain ⟨-, -, hcnt, -⟩ := (exec_rstep_fault_iff s).1 h
    have hlt := ((inv_withTrace hi rest).sides s).cnt_lt_L
    omega
  · rw [hs] at h; cases h

/-! ## The queue as a sequence (42_transfer_queue.md sections 2 and 3) -/

/-- An operation that neither empties the queue, nor takes from it, nor is the peer's step keeps its sequence. -/
theorem exec_qseq_kept (h : exec i σ = .next τ) (hreset : i ≠ .reset) (henable : i ≠ .enable 0)
    (hissue : ∀ e, i ≠ .txissue u e) (hstep : i ≠ .rstep (peer u)) : qseq (τ.side u) = qseq (σ.side u) := by
  have hmove := exec_sideMove h u
  generalize τ.side u = c at hmove ⊢
  cases hmove with
  | reset => exact absurd rfl hreset
  | init => exact absurd rfl henable
  | issue e => exact absurd rfl (hissue e)
  | fill => exact absurd rfl hstep
  | scan => rw [scanOwn_frame]; exact qseq_congr rfl rfl rfl
  | dma | half | full | done | take | keep => exact qseq_congr rfl rfl rfl

/-- Settles O25: clause by clause, what the operations named do to the sequence. -/
theorem queueRefinesFifo : Obligations.QueueRefinesFifo := by
  intro σ τ i u hi h
  refine ⟨?_, ?_, ?_, exec_qseq_kept h⟩
  · rintro (rfl | rfl)
    · obtain rfl := (execReset_next_iff σ τ).1 h
      exact qseq_resetBlock
    · obtain ⟨-, -, rfl⟩ := (execEnable_next_iff σ τ 0).1 h
      exact qseq_initialise
  · rintro e rfl
    obtain ⟨⟨-, -, hq, -⟩, rfl⟩ := (execTxissue_next_iff σ τ u e).1 h
    rw [afterAnswer_side]
    refine ⟨qHeadFrame (σ.side u), qseq_startTransmit_same hq, ?_, ?_⟩
    · rw [startTransmit_eq, output_side, setSide_side_same]
    · cases e <;> simp [afterAnswer, startTransmit_eq]
  · rintro rfl
    obtain ⟨-, -, rfl⟩ := (execRstep_next_iff σ τ (peer u)).1 h
    have hpush := qseq_scanStep_peer (σ := σ) (s := peer u) (hi.sides _)
    rw [peer_peer] at hpush
    rw [scanStep_side_same, scanOwn_wb, qseq_length]
    exact hpush.imp_right fun ⟨hq, hseq⟩ => ⟨one_le_qFree_iff.1 hq, hseq⟩

end Machine
end Sys2Proof
end

section
/-! What a step of a pass reads and writes (41_reassembler.md R135): two states that agree on what it reads have the same
step, and it commutes with what touches none of it. -/

namespace Sys2Proof
namespace Machine

variable {σ τ : State} {s t u : Side} {i : Instr}

/-! ## What a step reads -/

/-- Side `t` of `τ` and side `s` of `σ` agree on what a step of a pass reads: the mode, the pass's registers and the bytes
of the window. -/
structure ScanAgree (σ : State) (s : Side) (τ : State) (t : Side) : Prop where
  mode : τ.mode = σ.mode
  ph : (τ.side t).ph = (σ.side s).ph
  sh : (τ.side t).sh = (σ.side s).sh
  idx : (τ.side t).idx = (σ.side s).idx
  cnt : (τ.side t).cnt = (σ.side s).cnt
  wb : (τ.side t).wb = (σ.side s).wb
  byte : ∀ k, rxRead τ t (windowAddr (σ.side s).sh k) = rxRead σ s (windowAddr (σ.side s).sh k)

namespace ScanAgree

variable (h : ScanAgree σ s τ t)
include h

theorem scanByte_eq : scanByte τ t = scanByte σ s := by
  unfold scanByte; rw [h.sh, h.idx, h.byte]

theorem scanPrev_eq : scanPrev τ t = scanPrev σ s := by
  unfold scanPrev; rw [h.sh, h.idx, h.byte]

theorem scanAppends_eq : scanAppends τ t = scanAppends σ s := by
  unfold scanAppends; rw [h.idx, h.scanByte_eq, h.scanPrev_eq]

theorem wbAfter_eq : wbAfter τ t = wbAfter σ s := by
  unfold wbAfter; rw [h.scanAppends_eq, h.wb, h.cnt, h.scanByte_eq]

theorem cntAfter_eq : cntAfter τ t = cntAfter σ s := by
  unfold cntAfter; rw [h.scanAppends_eq, h.cnt]

theorem scanFlushes_eq : scanFlushes τ t = scanFlushes σ s := by
  unfold scanFlushes; rw [h.cntAfter_eq, h.idx]

/-- A step taken in the one state is taken in the other. -/
theorem exec_rstep {υ : State} (hr : exec (.rstep s) σ = .next υ) : exec (.rstep t) τ = .next (scanStep τ t) := by
  obtain ⟨⟨hm, hp⟩, hroom, -⟩ := (execRstep_next_iff σ υ s).1 hr
  refine (execRstep_next_iff τ _ t).2 ⟨⟨h.mode.trans hm, h.ph.trans hp⟩, ?_, rfl⟩
  rwa [h.scanAppends_eq, h.cnt]

end ScanAgree

/-- Window addresses of one half are not in the other. -/
theorem windowAddr_ne_of_halfOf_ne {a : RxAddr} {h : Half} (hne : halfOf a ≠ h) (k : BitVec 7) :
    windowAddr h k ≠ a := by
  rintro rfl
  exact hne (halfOf_windowAddr h k)

/-- An operation that is not the pass's own step, stays in `RUN` and writes no byte of the window keeps all a step of the
pass reads. -/
theorem scanAgree_of_next (hm : σ.mode = .run) (hp : (σ.side s).ph = .scan) (h : exec i σ = .next τ)
    (hrun : τ.mode = .run) (hstep : i ≠ .rstep s) (hdma : ∀ a d, i = .dmawr s a d → halfOf a ≠ (σ.side s).sh) :
    ScanAgree σ s τ s := by
  have hreset : i ≠ .reset := by
    rintro rfl
    obtain rfl := (execReset_next_iff σ τ).1 h
    cases hrun
  obtain ⟨hph, hsh, hidx, hcnt, hwb⟩ := pass_registers_kept hm hp h hstep hreset
  refine ⟨hrun.trans hm.symm, hph.trans hp.symm, hsh, hidx, hcnt, hwb, fun k => ?_⟩
  refine onlyDmaWritesTheReceiveBuffer σ τ i s _ h hreset fun d hd => ?_
  exact windowAddr_ne_of_halfOf_ne (hdma _ d hd) k rfl

/-! ## What a step writes -/

/-- What a step leaves on its own side, given the working buffer and the count it makes. -/
def ownAfter (w : Frame) (n : BitVec 5) (c : SideState) : SideState :=
  if isLast c.idx then { c with wb := w, cnt := n, ph := .idle } else { c with wb := w, cnt := n, idx := c.idx + 1 }

theorem scanOwn_eq_ownAfter : scanOwn σ s = ownAfter (wbAfter σ s) (cntLeft (cntAfter σ s)) (σ.side s) := rfl

/-- What a step leaves on the peer's side, given whether it flushes and what. -/
def flushedIf (b : Bool) (w : Frame) (c : SideState) : SideState := if b then flushed c w else c

theorem scanPeer_eq_flushedIf : scanPeer σ s = flushedIf (scanFlushes σ s) (wbAfter σ s) (σ.side (peer s)) := rfl

/-- A function of each side's context applied to both sides, `f` to side `s` and `g` to its peer. -/
def onSides (s : Side) (f g : SideState → SideState) (σ : State) : State :=
  (σ.setSide s (f (σ.side s))).setSide (peer s) (g (σ.side (peer s)))

theorem onSides_onSides (f g f' g' : SideState → SideState) :
    onSides s f' g' (onSides s f g σ) = onSides s (f' ∘ f) (g' ∘ g) σ := by cases s <;> rfl

theorem onSides_peer (f g : SideState → SideState) : onSides (peer s) g f σ = onSides s f g σ := by cases s <;> rfl

theorem setSide_eq_onSides (f : SideState → SideState) : σ.setSide s (f (σ.side s)) = onSides s f id σ := by
  cases s <;> rfl

theorem setSide_peer_eq_onSides (g : SideState → SideState) :
    σ.setSide (peer s) (g (σ.side (peer s))) = onSides s id g σ := by cases s <;> rfl

/-- A step of a pass as what it does to each side. -/
theorem scanStep_eq_onSides : scanStep σ s =
    onSides s (ownAfter (wbAfter σ s) (cntLeft (cntAfter σ s))) (flushedIf (scanFlushes σ s) (wbAfter σ s)) σ :=
  (scanStep_eq σ s).trans (by rw [scanOwn_eq_ownAfter, scanPeer_eq_flushedIf, onSides])

/-! ## Commuting -/

/-- The two parts of a step touch different registers, so they commute with each other. -/
theorem ownAfter_flushedIf (w v : Frame) (n : BitVec 5) (b : Bool) (c : SideState) :
    ownAfter w n (flushedIf b v c) = flushedIf b v (ownAfter w n c) := by
  unfold ownAfter flushedIf flushed
  split_ifs <;> rfl

/-- An operation that acts on each side by a function, keeps what a step of the pass reads, and whose functions commute
with the step's, commutes with the step. -/
theorem rstep_commutes_of_onSides {σ₁ σ₂ : State} {f g : SideState → SideState}
    (hr : exec (.rstep s) σ = .next σ₂) (hagree : ScanAgree σ s σ₁ s) (h₁ : σ₁ = onSides s f g σ)
    (hf : ∀ w n c, ownAfter w n (f c) = f (ownAfter w n c)) (hg : ∀ b w c, flushedIf b w (g c) = g (flushedIf b w c))
    (h₂ : exec i σ₂ = .next (onSides s f g σ₂)) :
    ∃ τ, exec (.rstep s) σ₁ = .next τ ∧ exec i σ₂ = .next τ := by
  obtain ⟨-, -, rfl⟩ := (execRstep_next_iff σ σ₂ s).1 hr
  refine ⟨scanStep σ₁ s, hagree.exec_rstep hr, h₂.trans ?_⟩
  rw [scanStep_eq_onSides (σ := σ₁), hagree.wbAfter_eq, hagree.cntAfter_eq, hagree.scanFlushes_eq,
    scanStep_eq_onSides, h₁, onSides_onSides, onSides_onSides]
  congr 2
  · exact funext fun c => (hf _ _ c).symm
  · exact funext fun c => (hg _ _ c).symm

/-- The case of an operation that acts on one side only. -/
theorem rstep_commutes_of_setSide {σ₁ σ₂ : State} {k : SideState → SideState}
    (hr : exec (.rstep s) σ = .next σ₂) (hagree : ScanAgree σ s σ₁ s) (h₁ : σ₁ = σ.setSide u (k (σ.side u)))
    (hf : u = s → ∀ w n c, ownAfter w n (k c) = k (ownAfter w n c))
    (hg : u = peer s → ∀ b w c, flushedIf b w (k c) = k (flushedIf b w c))
    (h₂ : exec i σ₂ = .next (σ₂.setSide u (k (σ₂.side u)))) :
    ∃ τ, exec (.rstep s) σ₁ = .next τ ∧ exec i σ₂ = .next τ := by
  rcases eq_or_eq_peer s u with rfl | rfl
  · rw [setSide_eq_onSides] at h₁ h₂
    exact rstep_commutes_of_onSides hr hagree h₁ (hf rfl) (fun _ _ _ => rfl) h₂
  · rw [setSide_peer_eq_onSides] at h₁ h₂
    exact rstep_commutes_of_onSides hr hagree h₁ (fun _ _ _ => rfl) (hg rfl) h₂

/-- What the environment's operations do to a side: they write the slot, the flag and the receive buffer. -/
def environmentSide (v : Bool → Bool) (x : Half → Half) (f : Bool → Bool) (m : List Host.Cell → List Host.Cell)
    (c : SideState) : SideState :=
  { c with nv := v c.nv, nval := x c.nval, txf := f c.txf, rxbuf := m c.rxbuf }

/-- The case of an operation of the environment: a step of the pass writes none of what it writes. -/
theorem rstep_commutes_of_environment {σ₁ σ₂ : State} {v f : Bool → Bool} {x : Half → Half}
    {m : List Host.Cell → List Host.Cell} (hr : exec (.rstep s) σ = .next σ₂) (hagree : ScanAgree σ s σ₁ s)
    (h₁ : σ.setSide u (environmentSide v x f m (σ.side u)) = σ₁)
    (h₂ : exec i σ₂ = .next (σ₂.setSide u (environmentSide v x f m (σ₂.side u)))) :
    ∃ τ, exec (.rstep s) σ₁ = .next τ ∧ exec i σ₂ = .next τ := by
  refine rstep_commutes_of_setSide hr hagree h₁.symm ?_ ?_ h₂
  · intro _ w n c; unfold ownAfter environmentSide; split <;> rfl
  · intro _ b w c; unfold flushedIf flushed environmentSide; split_ifs <;> rfl

/-- What a take does to its side. -/
def takeSide (c : SideState) : SideState :=
  { c with nv := false, ph := .scan, sh := c.nval, idx := 0, cnt := 0, wb := zeroFrame }

theorem takeAndStart_eq_takeSide : takeAndStart s σ = σ.setSide s (takeSide (σ.side s)) := takeAndStart_eq σ s

/-- A step of a pass takes no frame from its destination. -/
theorem le_scanPeer_qcnt : (σ.side (peer s)).qcnt.toNat ≤ (scanPeer σ s).qcnt.toNat := by
  unfold scanPeer flushed
  split_ifs with _ hlt
  · show _ ≤ ((σ.side (peer s)).qcnt + 1).toNat
    rw [qcnt_add_one_toNat hlt]; omega
  · exact Nat.le_refl _
  · exact Nat.le_refl _

/-- An operation accepted in `RUN` that is no reset and no failed transmission stays in `RUN`. -/
theorem run_of_next (hm : σ.mode = .run) (h : exec i σ = .next τ) (hreset : i ≠ .reset)
    (herror : ∀ u, i ≠ .txissue u .error) : τ.mode = .run := by
  rcases exec_mode_cases h with ⟨rfl, -⟩ | ⟨-, hoff, -⟩ | ⟨-, -, -, -, hoff, -⟩ | ⟨u, rfl, -⟩ | ⟨-, hrun, -⟩
  · exact absurd rfl hreset
  · rw [hm] at hoff; cases hoff
  · rw [hm] at hoff; cases hoff
  · exact absurd rfl (herror u)
  · exact hrun

/-- Settles O49: each event acts on the sides by functions that commute with the step's. -/
theorem scanCommutesWithIndependentEvents : Obligations.ScanCommutesWithIndependentEvents := by
  intro σ σ₁ σ₂ s i hi h hr
  obtain ⟨⟨hm, hp⟩, -, h₂⟩ := (execRstep_next_iff σ σ₂ s).1 hr
  have hm₂ : σ₂.mode = .run := by rw [← h₂, scanStep_mode, hm]
  have hrun : σ₁.mode = .run :=
    run_of_next hm h (by rintro rfl; simp at hi) (by rintro u rfl; simp at hi)
  have hagree : ScanAgree σ s σ₁ s := by
    refine scanAgree_of_next hm hp h hrun ?_ ?_
    · rintro rfl; simp at hi
    · rintro a d rfl; simpa using hi
  rcases hi with ⟨u, rfl | rfl | rfl⟩ | rfl | rfl | rfl | ⟨u, a, d, rfl, -⟩
  · exact rstep_commutes_of_environment (v := fun _ => true) (x := fun _ => 0) (f := id) (m := id) hr hagree
      ((execRxhalf_next_iff σ σ₁ u).1 h).2 ((execRxhalf_next_iff σ₂ _ u).2 ⟨hm₂, rfl⟩)
  · exact rstep_commutes_of_environment (v := fun _ => true) (x := fun _ => 1) (f := id) (m := id) hr hagree
      ((execRxfull_next_iff σ σ₁ u).1 h).2 ((execRxfull_next_iff σ₂ _ u).2 ⟨hm₂, rfl⟩)
  · exact rstep_commutes_of_environment (v := id) (x := id) (f := fun _ => false) (m := id) hr hagree
      ((execTxdone_next_iff σ σ₁ u).1 h).2 ((execTxdone_next_iff σ₂ _ u).2 ⟨hm₂, rfl⟩)
  · obtain ⟨⟨-, hidle, hv⟩, h₁⟩ := (execNtake_next_iff σ σ₁ (peer s)).1 h
    have hen : Enabled (.ntake (peer s)) σ₂ := by
      refine ⟨hm₂, ?_, ?_⟩ <;> rw [← h₂, scanStep_side_peer, scanPeer_frame]
      · exact hidle
      · exact hv
    refine rstep_commutes_of_setSide (u := peer s) (k := takeSide) hr hagree (h₁.symm.trans takeAndStart_eq_takeSide)
      (fun hu => absurd hu (peer_ne s)) ?_ ((execNtake_next_iff σ₂ _ (peer s)).2 ⟨hen, takeAndStart_eq_takeSide⟩)
    intro _ b w c; unfold flushedIf flushed takeSide; split_ifs <;> rfl
  · have hagree₂ : ScanAgree σ (peer s) σ₂ (peer s) := by
      obtain ⟨⟨-, hp'⟩, -, -⟩ := (execRstep_next_iff σ σ₁ (peer s)).1 h
      exact scanAgree_of_next hm hp' hr hm₂ (by simp) (by simp)
    obtain ⟨-, -, h₁⟩ := (execRstep_next_iff σ σ₁ (peer s)).1 h
    rw [scanStep_eq_onSides, onSides_peer] at h₁
    refine rstep_commutes_of_onSides hr hagree h₁.symm (fun w n c => ownAfter_flushedIf w _ n _ c)
      (fun b w c => (ownAfter_flushedIf _ w _ b c).symm) ?_
    rw [hagree₂.exec_rstep h, scanStep_eq_onSides, onSides_peer, hagree₂.wbAfter_eq, hagree₂.cntAfter_eq,
      hagree₂.scanFlushes_eq]
  · obtain ⟨⟨-, hidle, hq, hf⟩, rfl⟩ := (execTxdefer_next_iff σ σ₁ (peer s)).1 h
    refine ⟨σ₂, hr, exec_txdefer_of_enabled ⟨hm₂, ?_, ?_, ?_⟩⟩ <;> rw [← h₂, scanStep_side_peer]
    · rw [scanPeer_frame]; exact hidle
    · exact hq.trans le_scanPeer_qcnt
    · rw [scanPeer_frame]; exact hf
  · exact rstep_commutes_of_environment (v := id) (x := id) (f := id) (m := fun m => memWrite m a.toNat d) hr hagree
      ((execDmawr_next_iff σ σ₁ u a d).1 h).2 ((execDmawr_next_iff σ₂ _ u a d).2 ⟨hm₂, rfl⟩)

end Machine
end Sys2Proof
end

section
/-! The two sides exchanged (44_sequencer_and_system.md R177): exchanging commutes with each primitive. -/

namespace Sys2Proof
namespace Machine

variable {σ τ : State} {s : Side} {i : Instr}

/-! ## The primitives -/

@[simp] theorem swapSides_side_peer : (swapSides σ).side (peer s) = σ.side s := by cases s <;> rfl

@[simp] theorem swapSides_side : (swapSides σ).side s = σ.side (peer s) := by cases s <;> rfl

@[simp] theorem swapSides_mode : (swapSides σ).mode = σ.mode := rfl

theorem swapSides_setSide (c : SideState) : swapSides (σ.setSide s c) = (swapSides σ).setSide (peer s) c := by
  cases s <;> rfl

theorem swapSides_output (e : PortEvent) : swapSides (output σ e) = output (swapSides σ) (swapEvent e) := by
  simp [swapSides, output]

theorem swapSides_raiseFatal (k : Cause) : swapSides (raiseFatal σ k s) = raiseFatal (swapSides σ) k (peer s) := rfl

theorem swapSides_rxWrite (a : RxAddr) (d : Byte) :
    swapSides (rxWrite σ s a d) = rxWrite (swapSides σ) (peer s) a d := by
  rw [rxWrite, swapSides_setSide, rxWrite, swapSides_side_peer]

theorem swapSides_nPost (v : Half) : swapSides (nPost σ s v) = nPost (swapSides σ) (peer s) v := by
  rw [nPost, swapSides_setSide, nPost, swapSides_side_peer]

theorem swapSides_takeAndStart : swapSides (takeAndStart s σ) = takeAndStart (peer s) (swapSides σ) := by
  rw [takeAndStart_eq_takeSide, swapSides_setSide, takeAndStart_eq_takeSide, swapSides_side_peer]

theorem swapSides_startTransmit : swapSides (startTransmit s σ) = startTransmit (peer s) (swapSides σ) := by
  rw [startTransmit_eq, swapSides_output, swapSides_setSide, startTransmit_eq, swapSides_side_peer]
  rfl

theorem swapSides_afterAnswer (e : Answer) : swapSides (afterAnswer s e σ) = afterAnswer (peer s) e (swapSides σ) := by
  cases e with
  | ok => rfl
  | error => exact swapSides_raiseFatal .txst

theorem swapSides_onSides (f g : SideState → SideState) :
    swapSides (onSides s f g σ) = onSides (peer s) f g (swapSides σ) := by
  rw [onSides, swapSides_setSide, swapSides_setSide, onSides, swapSides_side_peer, peer_peer, swapSides_side]

/-! ## A step of a pass -/

/-- A byte that has been written reads alike on the exchanged side. -/
theorem rxRead_swapSides {a : RxAddr} (hw : (memRead? (σ.side s).rxbuf a.toNat).isSome = true) :
    rxRead (swapSides σ) (peer s) a = rxRead σ s a := by
  obtain ⟨d, hd⟩ := Option.isSome_iff_exists.1 hw
  unfold rxRead
  rw [swapSides_side_peer, hd]
  rfl

theorem scanAgree_swapSides (hw : ∀ b : RxAddr, (memRead? (σ.side s).rxbuf b.toNat).isSome = true) :
    ScanAgree σ s (swapSides σ) (peer s) := by
  refine ⟨rfl, ?_, ?_, ?_, ?_, ?_, fun k => rxRead_swapSides (hw _)⟩ <;> rw [swapSides_side_peer]

theorem swapSides_scanStep (hagree : ScanAgree σ s (swapSides σ) (peer s)) :
    swapSides (scanStep σ s) = scanStep (swapSides σ) (peer s) := by
  rw [scanStep_eq_onSides, swapSides_onSides, scanStep_eq_onSides, hagree.wbAfter_eq, hagree.cntAfter_eq,
    hagree.scanFlushes_eq]

/-! ## The obligation -/

/-- Settles O50: the rows of the enabling table read one side, and each effect commutes with exchanging. -/
theorem theSidesAreSymmetric : Obligations.TheSidesAreSymmetric := by
  intro σ τ s a d e
  refine ⟨fun h => ?_, fun h => ?_, fun h => ?_, fun h => ?_, fun h => ?_, fun hw h => ?_, fun h => ?_, fun h => ?_⟩
  · obtain ⟨hm, rfl⟩ := (execDmawr_next_iff σ τ s a d).1 h
    exact (execDmawr_next_iff _ _ _ a d).2 ⟨hm, (swapSides_rxWrite a d).symm⟩
  · obtain ⟨hm, rfl⟩ := (execRxhalf_next_iff σ τ s).1 h
    exact (execRxhalf_next_iff _ _ _).2 ⟨hm, (swapSides_nPost 0).symm⟩
  · obtain ⟨hm, rfl⟩ := (execRxfull_next_iff σ τ s).1 h
    exact (execRxfull_next_iff _ _ _).2 ⟨hm, (swapSides_nPost 1).symm⟩
  · obtain ⟨hm, rfl⟩ := (execTxdone_next_iff σ τ s).1 h
    exact (execTxdone_next_iff _ _ _).2 ⟨hm, by rw [swapSides_setSide, swapSides_side_peer]⟩
  · obtain ⟨hen, rfl⟩ := (execNtake_next_iff σ τ s).1 h
    refine (execNtake_next_iff _ _ _).2 ⟨?_, swapSides_takeAndStart.symm⟩
    rwa [enabled_ntake_iff, swapSides_side_peer, swapSides_mode]
  · have hagree := scanAgree_swapSides hw
    obtain ⟨-, -, rfl⟩ := (execRstep_next_iff σ τ s).1 h
    rw [hagree.exec_rstep h, swapSides_scanStep hagree]
  · obtain ⟨hen, rfl⟩ := (execTxissue_next_iff σ τ s e).1 h
    refine (execTxissue_next_iff _ _ _ e).2 ⟨?_, by rw [swapSides_afterAnswer, swapSides_startTransmit]⟩
    rwa [enabled_txissue_iff, swapSides_side_peer, swapSides_mode]
  · obtain ⟨hen, rfl⟩ := (execTxdefer_next_iff σ τ s).1 h
    refine (execTxdefer_next_iff _ _ _).2 ⟨?_, rfl⟩
    rwa [enabled_txdefer_iff, swapSides_side_peer, swapSides_mode]

end Machine
end Sys2Proof
end

section
/-! The frames of a window (41_reassembler.md R132 to R134): one byte of the pass as one of four cases, and from it what
the flushes hold, how many there are, and what their tails carry. -/

namespace Sys2Proof
namespace Machine

variable {prev b : Byte} {wb : Frame} {c : Nat} {left : List Byte}

/-! ## One byte -/

/-- The append test on a byte and the one before it (R122). -/
def appendsAfter (prev b : Byte) : Bool := decide (b ≠ 0) || decide (prev ≠ 0)

/-- The working buffer after one byte. -/
def wbNext (prev : Byte) (wb : Frame) (c : Nat) (b : Byte) : Frame :=
  if appendsAfter prev b then wb.setIfInBounds c b else wb

/-- The count after one byte, before the reset at `L`. -/
def cntNext (prev : Byte) (c : Nat) (b : Byte) : Nat := if appendsAfter prev b then c + 1 else c

theorem flushesFrom_cons : flushesFrom prev wb c (b :: left) =
    if cntNext prev c b = Config.L || (left.isEmpty && decide (0 < cntNext prev c b)) then
      (wbNext prev wb c b, cntNext prev c b) ::
        flushesFrom b (wbNext prev wb c b) (if cntNext prev c b = Config.L then 0 else cntNext prev c b) left
    else flushesFrom b (wbNext prev wb c b) (if cntNext prev c b = Config.L then 0 else cntNext prev c b) left := rfl

/-- With the count in range one byte either fills the frame, or goes on, or ends the window with a short frame or with
none. -/
theorem flushesFrom_cons_cases (prev : Byte) (wb : Frame) (b : Byte) (left : List Byte) (hc : c < Config.L) :
    (cntNext prev c b = Config.L ∧ flushesFrom prev wb c (b :: left) =
      (wbNext prev wb c b, Config.L) :: flushesFrom b (wbNext prev wb c b) 0 left) ∨
    (cntNext prev c b < Config.L ∧ left ≠ [] ∧ flushesFrom prev wb c (b :: left) =
      flushesFrom b (wbNext prev wb c b) (cntNext prev c b) left) ∨
    (cntNext prev c b < Config.L ∧ 0 < cntNext prev c b ∧ left = [] ∧ flushesFrom prev wb c (b :: left) =
      [(wbNext prev wb c b, cntNext prev c b)]) ∨
    (cntNext prev c b = 0 ∧ left = [] ∧ flushesFrom prev wb c (b :: left) = []) := by
  have hle : cntNext prev c b ≤ Config.L := by unfold cntNext; split <;> omega
  rw [flushesFrom_cons]
  by_cases hfull : cntNext prev c b = Config.L
  · exact .inl ⟨hfull, by simp [hfull]⟩
  · have hlt : cntNext prev c b < Config.L := by omega
    cases left with
    | cons d l => exact .inr (.inl ⟨hlt, List.cons_ne_nil _ _, by simp [hfull]⟩)
    | nil =>
      by_cases hpos : 0 < cntNext prev c b
      · exact .inr (.inr (.inl ⟨hlt, hpos, rfl, by simp [hpos, flushesFrom]⟩))
      · exact .inr (.inr (.inr ⟨by omega, rfl, by simp [hfull, hpos, flushesFrom]⟩))

/-- A byte leaves the buffer beyond the new count as it was. -/
theorem wbNext_getElem_of_le {k : Fin Config.L} (h : cntNext prev c b ≤ k.val) : (wbNext prev wb c b)[k] = wb[k] := by
  unfold wbNext
  split
  · next ha =>
    unfold cntNext at h
    rw [if_pos ha] at h
    rw [Fin.getElem_fin, Vector.getElem_setIfInBounds, if_neg (by omega), Fin.getElem_fin]
  · rfl

/-- The bytes below the new count are those below the old one, and the byte if it is appended. -/
theorem take_wbNext (hc : c < Config.L) : (wbNext prev wb c b).toList.take (cntNext prev c b) =
    wb.toList.take c ++ if appendsAfter prev b then [b] else [] := by
  have hlen : c < wb.toList.length := by rwa [Vector.length_toList]
  unfold wbNext cntNext
  split
  · rw [Vector.toList_setIfInBounds, List.take_set, List.take_add_one, List.getElem?_eq_getElem hlen,
      List.set_append_right _ _ (by simp), List.length_take, Nat.min_eq_left hlen.le]
    simp
  · simp

/-! ## What the flushes hold (R134) -/

/-- The bytes of a window the append test keeps, given the byte before it. -/
def keptFrom (prev : Byte) : List Byte → List Byte
  | [] => []
  | b :: left => if appendsAfter prev b then b :: keptFrom b left else keptFrom b left

theorem keptFrom_eq_zip (prev : Byte) (win : List Byte) : keptFrom prev win =
    ((win.zip (prev :: win)).filter (fun x => decide (x.1 ≠ 0) || decide (x.2 ≠ 0))).map Prod.fst := by
  induction win generalizing prev with
  | nil => rfl
  | cons b left ih =>
    rw [keptFrom, ih b, List.zip_cons_cons, List.filter_cons]
    unfold appendsAfter
    split <;> rfl

/-- What the append test drops is zero. -/
theorem filter_keptFrom (prev : Byte) (win : List Byte) :
    (keptFrom prev win).filter (fun b => decide (b ≠ 0)) = win.filter (fun b => decide (b ≠ 0)) := by
  induction win generalizing prev with
  | nil => rfl
  | cons b left ih =>
    rw [keptFrom]
    split
    · rw [List.filter_cons, List.filter_cons, ih]
    · next ha =>
      have hb : b = 0 := by
        simp only [appendsAfter, Bool.or_eq_true, decide_eq_true_eq, not_or, not_not] at ha
        exact ha.1
      rw [ih, List.filter_cons, if_neg (by simp [hb])]

/-- The logical parts still to come are the bytes in the buffer and the kept ones of what is left. -/
theorem flatten_flushesFrom (prev : Byte) (wb : Frame) (hc : c < Config.L) (left : List Byte)
    (hend : left = [] → c = 0) :
    ((flushesFrom prev wb c left).map logicalPart).flatten = wb.toList.take c ++ keptFrom prev left := by
  induction left generalizing prev wb c with
  | nil => rw [hend rfl]; rfl
  | cons b left ih =>
    have hkept : wb.toList.take c ++ keptFrom prev (b :: left) =
        (wbNext prev wb c b).toList.take (cntNext prev c b) ++ keptFrom b left := by
      rw [take_wbNext hc, keptFrom, List.append_assoc]
      split <;> rfl
    rw [hkept]
    rcases flushesFrom_cons_cases prev wb b left hc with ⟨hfull, heq⟩ | ⟨hlt, hleft, heq⟩ | ⟨-, -, rfl, heq⟩ |
      ⟨hzero, rfl, heq⟩ <;> rw [heq]
    · rw [List.map_cons, List.flatten_cons, ih b _ (by decide) fun _ => rfl, hfull]
      rfl
    · exact ih b _ hlt fun h => absurd h hleft
    · rfl
    · rw [hzero]; rfl

/-- The logical parts of a window's flushes are its kept bytes. -/
theorem flatten_flushes (win : List Byte) : ((flushes win).map logicalPart).flatten = keptFrom 0 win :=
  flatten_flushesFrom 0 zeroFrame (by decide) win fun _ => rfl

/-- Settles O53: the statement's list of kept bytes is the recursive one. -/
theorem framesHoldExactlyTheKeptBytes : Obligations.FramesHoldExactlyTheKeptBytes := by
  intro win _
  rw [flatten_flushes, keptFrom_eq_zip]

/-- Settles O54: no nonzero byte is dropped. -/
theorem framesKeepNonzeroBytesInOrder : Obligations.FramesKeepNonzeroBytesInOrder := by
  intro win _
  rw [flatten_flushes, filter_keptFrom]

/-! ## Counts (R128, R132) -/

/-- Every flush holds at least one byte and at most `L`. -/
theorem count_of_mem_flushesFrom (prev : Byte) (wb : Frame) (hc : c < Config.L) (left : List Byte) :
    ∀ fl ∈ flushesFrom prev wb c left, 1 ≤ fl.2 ∧ fl.2 ≤ Config.L := by
  induction left generalizing prev wb c with
  | nil => exact fun _ h => absurd h List.not_mem_nil
  | cons b left ih =>
    rcases flushesFrom_cons_cases prev wb b left hc with ⟨-, heq⟩ | ⟨hlt, -, heq⟩ | ⟨hlt, hpos, -, heq⟩ |
      ⟨-, -, heq⟩ <;> rw [heq]
    · rintro fl (_ | ⟨_, hmem⟩)
      · exact ⟨show 1 ≤ Config.L by decide, Nat.le_refl _⟩
      · exact ih b _ (by decide) fl hmem
    · exact ih b _ hlt
    · rintro fl hmem
      obtain rfl := List.mem_singleton.1 hmem
      exact ⟨hpos, hlt.le⟩
    · exact fun _ h => absurd h List.not_mem_nil

/-- Every flush but the last is full. -/
theorem count_of_mem_dropLast_flushesFrom (prev : Byte) (wb : Frame) (hc : c < Config.L) (left : List Byte) :
    ∀ fl ∈ (flushesFrom prev wb c left).dropLast, fl.2 = Config.L := by
  induction left generalizing prev wb c with
  | nil => exact fun _ h => absurd h List.not_mem_nil
  | cons b left ih =>
    rcases flushesFrom_cons_cases prev wb b left hc with ⟨-, heq⟩ | ⟨hlt, -, heq⟩ | ⟨-, -, -, heq⟩ |
      ⟨-, -, heq⟩ <;> rw [heq]
    · intro fl hmem
      have hrest := ih b (wbNext prev wb c b) (c := 0) (by decide)
      cases h : flushesFrom b (wbNext prev wb c b) 0 left with
      | nil => rw [h] at hmem; exact absurd hmem List.not_mem_nil
      | cons fl' rest =>
        rw [h] at hmem hrest
        rcases List.mem_cons.1 hmem with rfl | hmem
        · rfl
        · exact hrest fl hmem
    · exact ih b _ hlt
    · exact fun _ h => absurd h List.not_mem_nil
    · exact fun _ h => absurd h List.not_mem_nil

/-- Settles O56: of the four cases of a byte only the window's end flushes short. -/
theorem onlyTheLastFlushIsShort : Obligations.OnlyTheLastFlushIsShort :=
  fun win _ => ⟨count_of_mem_dropLast_flushesFrom 0 zeroFrame (by decide) win,
    count_of_mem_flushesFrom 0 zeroFrame (by decide) win⟩

/-- Each flush but the last takes `L` bytes of the buffer and the window. -/
theorem length_flushesFrom (prev : Byte) (wb : Frame) (hc : c < Config.L) (left : List Byte) :
    Config.L * (flushesFrom prev wb c left).length ≤ c + left.length + (Config.L - 1) := by
  induction left generalizing prev wb c with
  | nil => simp [flushesFrom]
  | cons b left ih =>
    have hle : cntNext prev c b ≤ c + 1 := by unfold cntNext; split <;> omega
    rcases flushesFrom_cons_cases prev wb b left hc with ⟨hfull, heq⟩ | ⟨hlt, -, heq⟩ | ⟨-, -, -, heq⟩ |
      ⟨-, -, heq⟩ <;> rw [heq]
    · have hrest := ih b (wbNext prev wb c b) (c := 0) (by decide)
      simp only [List.length_cons, Config.L] at *
      omega
    · have hrest := ih b (wbNext prev wb c b) hlt
      simp only [List.length_cons, Config.L] at *
      omega
    · simp only [List.length_cons, List.length_nil, Config.L]; omega
    · simp

/-- Of zeros after a zero nothing is kept. -/
theorem keptFrom_of_zeros {win : List Byte} (h : ∀ b ∈ win, b = 0) : keptFrom 0 win = [] := by
  induction win with
  | nil => rfl
  | cons b left ih =>
    obtain rfl := h b List.mem_cons_self
    exact ih fun d hd => h d (List.mem_cons_of_mem _ hd)

/-- A flush has a logical part. -/
theorem logicalPart_ne_nil {win : List Byte} {fl : Frame × Nat} (h : fl ∈ flushes win) : logicalPart fl ≠ [] := by
  have hcnt := (count_of_mem_flushesFrom 0 zeroFrame (by decide) win fl h).1
  intro hnil
  have hlen := congrArg List.length hnil
  rw [logicalPart, List.length_take, Vector.length_toList] at hlen
  simp only [List.length_nil, Config.L] at hlen
  omega

/-- A window has no flush exactly when it is all zero. -/
theorem flushes_eq_nil_iff (win : List Byte) : flushes win = [] ↔ ∀ b ∈ win, b = 0 := by
  have hkept := filter_keptFrom 0 win
  rw [← flatten_flushes] at hkept
  have hzero : win.filter (fun b => decide (b ≠ 0)) = [] ↔ ∀ b ∈ win, b = 0 := by simp [List.filter_eq_nil_iff]
  constructor
  · intro h
    rw [h] at hkept
    exact hzero.1 hkept.symm
  · intro h
    have hnone : ((flushes win).map logicalPart).flatten = [] := by rw [flatten_flushes, keptFrom_of_zeros h]
    refine List.eq_nil_iff_forall_not_mem.2 fun fl hfl => logicalPart_ne_nil hfl ?_
    exact List.flatten_eq_nil_iff.1 hnone _ (List.mem_map_of_mem hfl)

/-- Settles O55: eight full frames use up the window, and the append test keeps a nonzero byte. -/
theorem framesAreAtMostEight : Obligations.FramesAreAtMostEight := by
  intro win hwin
  have hlen := length_flushesFrom 0 zeroFrame (c := 0) (by decide) win
  refine ⟨?_, ?_⟩
  · rw [hwin] at hlen
    simp only [frames, flushes, List.length_map, Config.L, Config.H] at *
    omega
  · rw [frames, List.map_eq_nil_iff, flushes_eq_nil_iff]

/-! ## The stale tail (R133) -/

/-- The first flush holds at least what the buffer held, and its tail is the buffer's. -/
theorem tail_of_head_flushesFrom (prev : Byte) (wb : Frame) (hc : c < Config.L) (left : List Byte) :
    ∀ fl ∈ (flushesFrom prev wb c left).head?, c ≤ fl.2 ∧ ∀ k : Fin Config.L, fl.2 ≤ k.val → fl.1[k] = wb[k] := by
  induction left generalizing prev wb c with
  | nil => exact fun _ h => nomatch h
  | cons b left ih =>
    have hle : c ≤ cntNext prev c b := by unfold cntNext; split <;> omega
    rcases flushesFrom_cons_cases prev wb b left hc with ⟨hfull, heq⟩ | ⟨hlt, -, heq⟩ | ⟨-, -, -, heq⟩ |
      ⟨-, -, heq⟩ <;> rw [heq]
    · rintro fl hmem
      obtain rfl := Option.mem_some_iff.1 hmem
      exact ⟨hc.le, fun k hk => absurd k.isLt (by omega)⟩
    · intro fl hmem
      obtain ⟨hcnt, htail⟩ := ih b (wbNext prev wb c b) hlt fl hmem
      exact ⟨hle.trans hcnt, fun k hk => (htail k hk).trans (wbNext_getElem_of_le (hcnt.trans hk))⟩
    · rintro fl hmem
      obtain rfl := Option.mem_some_iff.1 hmem
      exact ⟨hle, fun k hk => wbNext_getElem_of_le hk⟩
    · exact fun _ h => nomatch h

/-- A later flush carries the tail of the one before it. -/
theorem tail_of_next_flushesFrom (prev : Byte) (wb : Frame) (hc : c < Config.L) (left : List Byte) (n : Nat)
    (fl fl' : Frame × Nat) (h : (flushesFrom prev wb c left)[n]? = some fl)
    (h' : (flushesFrom prev wb c left)[n + 1]? = some fl') :
    ∀ k : Fin Config.L, fl'.2 ≤ k.val → fl'.1[k] = fl.1[k] := by
  induction left generalizing prev wb c n with
  | nil => cases h
  | cons b left ih =>
    rcases flushesFrom_cons_cases prev wb b left hc with ⟨hfull, heq⟩ | ⟨hlt, -, heq⟩ | ⟨-, -, -, heq⟩ |
      ⟨-, -, heq⟩ <;> rw [heq] at h h'
    · rw [List.getElem?_cons_succ] at h'
      cases n with
      | zero =>
        obtain rfl := Option.some_inj.1 h
        rw [← List.head?_eq_getElem?] at h'
        exact (tail_of_head_flushesFrom b _ (by decide) left fl' h').2
      | succ n => exact ih b _ (by decide) n h h'
    · exact ih b _ hlt n h h'
    · cases h'
    · cases h

/-- Settles O57: the buffer is zero at the start of the pass, and a flush leaves it as it is. -/
theorem shortFramesCarryTheStaleTail : Obligations.ShortFramesCarryTheStaleTail := by
  intro win _
  refine ⟨fun fl hfl k hk => ?_, fun n fl fl' => tail_of_next_flushesFrom 0 zeroFrame (by decide) win n fl fl'⟩
  rw [(tail_of_head_flushesFrom 0 zeroFrame (by decide) win fl hfl).2 k hk, Fin.getElem_fin, Vector.getElem_replicate]

end Machine
end Sys2Proof
end

section
/-! A whole pass (41_reassembler.md R132, R133): what the destination will hold at its end is told by the state at any of its
steps, and stays the same over the pass's steps and over whatever comes between them. -/

namespace Sys2Proof
namespace Machine

variable {σ τ : State} {s : Side} {i : Instr}

/-! ## Delivering frames to a queue -/

/-- A queue's sequence after these frames are flushed to it: as many of them as it has free slots for (R133). -/
def deliver (q fs : List Frame) : List Frame := q ++ fs.take (Config.M - q.length)

@[simp] theorem deliver_nil (q : List Frame) : deliver q [] = q := by simp [deliver]

/-- Frames delivered in two parts are delivered in one. -/
theorem deliver_deliver (q fs gs : List Frame) : deliver (deliver q fs) gs = deliver q (fs ++ gs) := by
  have hroom : Config.M - (q.length + min (Config.M - q.length) fs.length) = Config.M - q.length - fs.length := by
    omega
  simp only [deliver, List.length_append, List.length_take, List.take_append, List.append_assoc, hroom]

/-- A flush delivers one frame. -/
theorem qseq_flushed {c : SideState} (hi : SideInv c) (f : Frame) : qseq (flushed c f) = deliver (qseq c) [f] := by
  unfold flushed deliver
  rw [qseq_length]
  split
  · next hlt =>
    rw [List.take_of_length_le (by rw [List.length_singleton]; omega)]
    exact qseq_push hi hlt rfl rfl rfl
  · next hfull =>
    rw [show Config.M - c.qcnt.toNat = 0 by omega, List.take_zero, List.append_nil]

/-- What a step of a pass flushes. -/
def flushOf (σ : State) (s : Side) : List Frame := if scanFlushes σ s then [wbAfter σ s] else []

theorem qseq_scanPeer (hi : SideInv (σ.side (peer s))) :
    qseq (scanPeer σ s) = deliver (qseq (σ.side (peer s))) (flushOf σ s) := by
  unfold scanPeer flushOf
  split
  · exact qseq_flushed hi _
  · rw [deliver_nil]

/-! ## The window -/

@[simp] theorem window_length (h : Half) : (window σ s h).length = Config.H := by simp [window]

/-- Two states that read the same bytes of a half have the same window. -/
theorem window_congr {h h' : Half}
    (hb : ∀ k, rxRead τ s (windowAddr h' k) = rxRead σ s (windowAddr h k)) : window τ s h' = window σ s h :=
  List.map_congr_left fun _ _ => hb _

/-- What is left of a window from an index on begins with the byte there. -/
theorem window_drop (h : Half) (k : BitVec 7) : (window σ s h).drop k.toNat =
    rxRead σ s (windowAddr h k) :: (window σ s h).drop (k.toNat + 1) := by
  have hk : k.toNat < (window σ s h).length := by rw [window_length]; exact k.isLt
  rw [List.drop_eq_getElem_cons hk]
  simp [window]

/-- Nothing is left after the last index. -/
theorem window_drop_isEmpty (h : Half) (k : BitVec 7) :
    ((window σ s h).drop (k.toNat + 1)).isEmpty = isLast k := by
  have hk := k.isLt
  rw [Bool.eq_iff_iff, List.isEmpty_iff, List.drop_eq_nil_iff, window_length, isLast_iff]
  simp only [Config.H]
  omega

/-! ## The frames still to come -/

/-- The frames a pass under way has still to flush. -/
def pending (σ : State) (s : Side) : List Frame :=
  (flushesFrom (scanPrev σ s) (σ.side s).wb (σ.side s).cnt.toNat
    ((window σ s (σ.side s).sh).drop (σ.side s).idx.toNat)).map Prod.fst

/-- What the destination will hold at the end of the pass. -/
def outcome (σ : State) (s : Side) : List Frame := deliver (qseq (σ.side (peer s))) (pending σ s)

/-- The append test of the one-function pass is that of the step. -/
theorem appendsAfter_scan : appendsAfter (scanPrev σ s) (scanByte σ s) = scanAppends σ s := by
  unfold appendsAfter scanAppends appendTest scanPrev
  by_cases h : 0 < (σ.side s).idx.toNat <;> simp [h]

theorem wbNext_scan :
    wbNext (scanPrev σ s) (σ.side s).wb (σ.side s).cnt.toNat (scanByte σ s) = wbAfter σ s := by
  unfold wbNext wbAfter; rw [appendsAfter_scan]

theorem cntNext_scan (hc : (σ.side s).cnt.toNat < Config.L) :
    cntNext (scanPrev σ s) (σ.side s).cnt.toNat (scanByte σ s) = (cntAfter σ s).toNat := by
  unfold cntNext; rw [appendsAfter_scan, cntAfter_toNat σ s hc]; split <;> rfl

/-- The frames still to come are what the step flushes and those of the rest of the window. -/
theorem pending_eq (hc : (σ.side s).cnt.toNat < Config.L) : pending σ s = flushOf σ s ++
    (flushesFrom (scanByte σ s) (wbAfter σ s) (cntLeft (cntAfter σ s)).toNat
      ((window σ s (σ.side s).sh).drop ((σ.side s).idx.toNat + 1))).map Prod.fst := by
  unfold pending flushOf scanFlushes flushTest
  rw [window_drop, ← scanByte, flushesFrom_cons, wbNext_scan, cntNext_scan hc, window_drop_isEmpty, cntLeft_toNat]
  split <;> rfl

/-- At the last index only the step's own flush is to come. -/
theorem pending_of_last (hc : (σ.side s).cnt.toNat < Config.L) (hl : (σ.side s).idx.toNat = Config.H - 1) :
    pending σ s = flushOf σ s := by
  rw [pending_eq hc, List.drop_of_length_le (by rw [window_length, hl]; decide)]
  exact List.append_nil _

/-- Before it the step leaves the rest to come. -/
theorem pending_of_not_last (hc : (σ.side s).cnt.toNat < Config.L) (hl : (σ.side s).idx.toNat < Config.H - 1) :
    pending σ s = flushOf σ s ++ pending (scanStep σ s) s := by
  have hread : ∀ a, rxRead (scanStep σ s) s a = rxRead σ s a :=
    rxRead_congr scanStep_rxbuf (scanStep_draws σ s)
  have hsh : ((scanStep σ s).side s).sh = (σ.side s).sh := by rw [scanStep_side_same, scanOwn_frame]
  have hidx : ((scanStep σ s).side s).idx.toNat = (σ.side s).idx.toNat + 1 := by
    rw [scanStep_side_same]; exact (scanOwn_of_not_last hl).2
  have hprev : scanPrev (scanStep σ s) s = scanByte σ s := by
    have hpred : ((scanStep σ s).side s).idx - 1 = (σ.side s).idx := by bv_omega
    rw [scanPrev, if_pos (by omega), hsh, hpred, hread, scanByte]
  rw [pending_eq hc]
  unfold pending
  rw [hprev, hidx, hsh, window_congr fun k => hread _, scanStep_side_same, scanOwn_wb, scanOwn_cnt]

/-- A step of the pass before the last index keeps the outcome. -/
theorem outcome_scanStep (hc : (σ.side s).cnt.toNat < Config.L) (hi : SideInv (σ.side (peer s)))
    (hl : (σ.side s).idx.toNat < Config.H - 1) : outcome (scanStep σ s) s = outcome σ s := by
  unfold outcome
  rw [scanStep_side_peer, qseq_scanPeer hi, deliver_deliver, ← pending_of_not_last hc hl]

/-- The last step of the pass reaches the outcome. -/
theorem qseq_scanStep_of_last (hc : (σ.side s).cnt.toNat < Config.L) (hi : SideInv (σ.side (peer s)))
    (hl : (σ.side s).idx.toNat = Config.H - 1) : qseq ((scanStep σ s).side (peer s)) = outcome σ s := by
  unfold outcome
  rw [scanStep_side_peer, qseq_scanPeer hi, pending_of_last hc hl]

/-- An operation that keeps what the pass reads keeps the frames to come. -/
theorem pending_congr (h : ScanAgree σ s τ s) : pending τ s = pending σ s := by
  unfold pending
  rw [h.scanPrev_eq, h.wb, h.cnt, h.idx, h.sh, window_congr h.byte]

/-- At the start of a pass all frames of the window are to come. -/
theorem outcome_takeAndStart : outcome (takeAndStart s σ) s =
    deliver (qseq (σ.side (peer s))) (frames (window σ s (σ.side s).nval)) := by
  have hown : (takeAndStart s σ).side s = takeSide (σ.side s) := by
    rw [takeAndStart_eq_takeSide, setSide_side_same]
  have hread : ∀ a, rxRead (takeAndStart s σ) s a = rxRead σ s a :=
    rxRead_congr (by rw [hown]; rfl) (by rw [takeAndStart_eq_takeSide, setSide_draws])
  unfold outcome
  rw [qseq_takeAndStart]
  unfold pending scanPrev
  rw [hown]
  show deliver _ ((flushesFrom 0 zeroFrame 0 (window (takeAndStart s σ) s (σ.side s).nval)).map Prod.fst) = _
  rw [window_congr fun k => hread _]
  rfl

/-! ## A pass with anything between its steps -/

/-- The operations a clean pass allows between its post and its last step (R216), with no transmission of the peer. -/
def CleanOp (s : Side) (h : Half) (i : Instr) : Prop :=
  writesHalf s h i = false ∧ i ≠ .reset ∧ ∀ e, i ≠ .txissue (peer s) e

theorem halfOf_ne_of_cleanOp {h : Half} {a : RxAddr} {d : Byte} (hi : CleanOp s h (.dmawr s a d)) : halfOf a ≠ h := by
  simpa [writesHalf] using hi.1

/-- In `RUN` an allowed operation other than the step keeps the destination's sequence. -/
theorem qseq_peer_of_cleanOp {h : Half} (hm : σ.mode = .run) (hx : exec i σ = .next τ) (hi : CleanOp s h i)
    (hstep : i ≠ .rstep s) : qseq (τ.side (peer s)) = qseq (σ.side (peer s)) := by
  refine exec_qseq_kept hx hi.2.1 ?_ hi.2.2 (by rwa [peer_peer])
  rintro rfl
  have hoff : σ.mode = .off := enabled_of_next hx
  rw [hm] at hoff
  cases hoff

/-- A pass under way with `n` steps to come: what its statements assume. -/
structure PassUnderWay (s : Side) (h : Half) (n : Nat) (σ : State) : Prop where
  mode : σ.mode = .run
  ph : (σ.side s).ph = .scan
  sh : (σ.side s).sh = h
  room : (σ.side s).cnt.toNat < Config.L
  left : (σ.side s).idx.toNat + n = Config.H
  dest : SideInv (σ.side (peer s))

theorem PassUnderWay.exec_rstep {h : Half} {n : Nat} (hp : PassUnderWay s h n σ) :
    exec (.rstep s) σ = .next (scanStep σ s) := execRstep_of_scan σ s hp.mode hp.ph hp.room

theorem PassUnderWay.index_lt {h : Half} {n : Nat} (hp : PassUnderWay s h (n + 2) σ) :
    (σ.side s).idx.toNat < Config.H - 1 := by
  have hleft := hp.left
  omega

theorem PassUnderWay.index_last {h : Half} (hp : PassUnderWay s h 1 σ) : (σ.side s).idx.toNat = Config.H - 1 := by
  have hleft := hp.left
  omega

/-- A pass under way has a step to come. -/
theorem PassUnderWay.pos {h : Half} {n : Nat} (hp : PassUnderWay s h n σ) : 0 < n := by
  have hleft := hp.left
  have hidx : (σ.side s).idx.toNat < Config.H := (σ.side s).idx.isLt
  omega

/-- A step before the last leaves one step fewer. -/
theorem PassUnderWay.after_scanStep {h : Half} {n : Nat} (hp : PassUnderWay s h (n + 2) σ) :
    PassUnderWay s h (n + 1) (scanStep σ s) := by
  have hown := scanOwn_of_not_last hp.index_lt
  refine ⟨?_, ?_, ?_, ?_, ?_, ?_⟩
  · rw [scanStep_mode, hp.mode]
  · rw [scanStep_side_same, hown.1, hp.ph]
  · rw [scanStep_side_same, scanOwn_frame]; exact hp.sh
  · rw [scanStep_side_same]; exact scanOwn_cnt_lt hp.room
  · have hleft := hp.left
    rw [scanStep_side_same, hown.2]; omega
  · exact exec_sideInv hp.dest hp.exec_rstep

/-- In a pass an allowed operation other than the step keeps all of the pass, and what the destination will hold. -/
theorem PassUnderWay.after_cleanOp {h : Half} {n : Nat} (hp : PassUnderWay s h n σ) (hx : exec i σ = .next τ)
    (hi : CleanOp s h i) (hstep : i ≠ .rstep s) : PassUnderWay s h n τ ∧ outcome τ s = outcome σ s := by
  have herror : ∀ u, i ≠ .txissue u .error := by
    rintro u rfl
    rcases eq_or_eq_peer s u with rfl | rfl
    · obtain ⟨-, hidle, -⟩ := enabled_of_next hx
      rw [hp.ph] at hidle; cases hidle
    · exact hi.2.2 _ rfl
  have hrun := run_of_next hp.mode hx hi.2.1 herror
  have hagree : ScanAgree σ s τ s := by
    refine scanAgree_of_next hp.mode hp.ph hx hrun hstep ?_
    rintro a d rfl
    rw [hp.sh]; exact halfOf_ne_of_cleanOp hi
  refine ⟨⟨hrun, hagree.ph.trans hp.ph, hagree.sh.trans hp.sh, ?_, ?_, exec_sideInv hp.dest hx⟩, ?_⟩
  · rw [hagree.cnt]; exact hp.room
  · rw [hagree.idx]; exact hp.left
  · rw [outcome, outcome, qseq_peer_of_cleanOp hp.mode hx hi hstep, pending_congr hagree]

/-- A pass under way whose steps all come, with allowed operations between them, reaches its outcome. -/
theorem pass_reaches_outcome {h : Half} {body : List Instr} (hp : PassUnderWay s h (body.count (.rstep s)) σ)
    (hlast : body.getLast? = some (.rstep s)) (hclean : ∀ i ∈ body, CleanOp s h i) (ha : accept body σ = some τ) :
    qseq (τ.side (peer s)) = outcome σ s := by
  induction body generalizing σ with
  | nil => cases hlast
  | cons i body ih =>
    obtain ⟨t, hx, ha⟩ := accept_cons_iff.1 ha
    have htail : body ≠ [] → body.getLast? = some (.rstep s) := fun hne => by
      obtain ⟨j, l, rfl⟩ := List.exists_cons_of_ne_nil hne
      rwa [List.getLast?_cons_cons] at hlast
    have hcleanTail : ∀ j ∈ body, CleanOp s h j := fun j hj => hclean j (List.mem_cons_of_mem _ hj)
    by_cases hi : i = .rstep s
    · subst hi
      rw [List.count_cons_self] at hp
      rw [hp.exec_rstep] at hx
      cases hx
      cases hn : body.count (.rstep s) with
      | zero =>
        have hnil : body = [] := by
          by_contra hne
          exact absurd (List.mem_of_getLast? (htail hne)) (List.count_eq_zero.1 hn)
        subst hnil
        rw [accept_nil, Option.some_inj] at ha
        subst ha
        exact qseq_scanStep_of_last hp.room hp.dest hp.index_last
      | succ n =>
        rw [hn] at hp
        have hne : body ≠ [] := by rintro rfl; cases hn
        rw [ih (hn ▸ hp.after_scanStep) (htail hne) hcleanTail ha, outcome_scanStep hp.room hp.dest hp.index_lt]
    · rw [List.count_cons_of_ne hi] at hp
      obtain ⟨hpt, hout⟩ := hp.after_cleanOp hx (hclean i List.mem_cons_self) hi
      have hne : body ≠ [] := by rintro rfl; exact absurd hpt.pos (by simp)
      rw [ih hpt (htail hne) hcleanTail ha, hout]

/-! ## The start of a pass -/

/-- A take in the idle phase starts a pass with all its steps to come. -/
theorem passUnderWay_takeAndStart (hm : σ.mode = .run) (hi : SideInv (σ.side (peer s))) :
    PassUnderWay s (σ.side s).nval Config.H (takeAndStart s σ) := by
  rw [takeAndStart_eq_takeSide]
  refine ⟨?_, ?_, ?_, ?_, ?_, ?_⟩
  · rw [setSide_mode, hm]
  · rw [setSide_side_same]; rfl
  · rw [setSide_side_same]; rfl
  · rw [setSide_side_same]; exact (by decide : (0 : BitVec 5).toNat < Config.L)
  · rw [setSide_side_same]; rfl
  · rw [setSide_side_peer]; exact hi

/-- The steps of a pass with nothing between them are accepted and end it. -/
theorem accept_steps {h : Half} {n : Nat} (hp : PassUnderWay s h (n + 1) σ) :
    ∃ τ, accept (List.replicate (n + 1) (.rstep s)) σ = some τ ∧ (τ.side s).ph = .idle ∧ τ.mode = .run := by
  induction n generalizing σ with
  | zero =>
    refine ⟨scanStep σ s, accept_cons hp.exec_rstep, ?_, by rw [scanStep_mode, hp.mode]⟩
    rw [scanStep_side_same]
    exact (scanOwn_of_last hp.index_last).1
  | succ n ih =>
    rw [List.replicate_succ, accept_cons hp.exec_rstep]
    exact ih hp.after_scanStep

/-- Settles O51: the take starts a pass, its steps end it, and it reaches its outcome. -/
theorem wholePassPushesTheWindowsFrames : Obligations.WholePassPushesTheWindowsFrames := by
  intro σ s hm hidle hv hi
  have htake : exec (.ntake s) σ = .next (takeAndStart s σ) :=
    (execNtake_next_iff σ _ s).2 ⟨⟨hm, hidle, hv⟩, rfl⟩
  have hpass := passUnderWay_takeAndStart (s := s) hm hi
  obtain ⟨τ, ha, hend, hrun⟩ := accept_steps (n := Config.H - 1) hpass
  refine ⟨τ, (accept_cons htake).trans ha, hend, hrun, ?_⟩
  rw [pass_reaches_outcome (body := List.replicate Config.H (.rstep s)) (by rwa [List.count_replicate_self]) rfl
    (fun i hmem => ?_) ha, outcome_takeAndStart, deliver]
  obtain rfl := List.eq_of_mem_replicate hmem
  exact ⟨rfl, nofun, nofun⟩

/-! ## From the post to the take -/

/-- An idle sequencer is idle until it takes a notification. -/
theorem idle_kept (hidle : (σ.side s).ph = .idle) (h : exec i σ = .next τ) (htake : i ≠ .ntake s) :
    (τ.side s).ph = .idle := by
  have hmove := exec_sideMove h s
  generalize τ.side s = c at hmove ⊢
  cases hmove with
  | take => exact absurd rfl htake
  | scan hen => rw [hen.2] at hidle; cases hidle
  | fill => rw [scanPeer_frame, peer_peer]; exact hidle
  | reset | init => rfl
  | dma | half | full | done | issue | keep => exact hidle

/-- Where a trace without a reset goes on from `RUN`, its operation left `RUN`. -/
theorem run_of_accept {tr : List Instr} {υ : State} (hm : σ.mode = .run) (h : exec i σ = .next τ) (hreset : i ≠ .reset)
    (ha : accept tr τ = some υ) (hne : tr ≠ []) (htr : Instr.reset ∉ tr) : τ.mode = .run := by
  refine run_of_next hm h hreset ?_
  rintro u rfl
  obtain ⟨j, l, rfl⟩ := List.exists_cons_of_ne_nil hne
  obtain ⟨t, hj, -⟩ := accept_cons_iff.1 ha
  have hfatal : τ.mode = .fatal := by
    obtain ⟨-, rfl⟩ := (execTxissue_next_iff σ τ u .error).1 h
    rfl
  exact mode_ne_fatal_of_enabled (enabled_of_next hj) (fun hjr => htr (hjr ▸ List.mem_cons_self)) hfatal

/-- A posted half that waits at an idle sequencer: what a clean pass assumes between post and take. -/
structure Posted (s : Side) (h : Half) (σ : State) : Prop where
  mode : σ.mode = .run
  idle : (σ.side s).ph = .idle
  slot : (σ.side s).nv = true
  value : (σ.side s).nval = h
  dest : SideInv (σ.side (peer s))

/-- An allowed operation other than a post or a take of the side keeps the posted half, its window and the destination. -/
theorem Posted.after_cleanOp {h : Half} (hp : Posted s h σ) (hx : exec i σ = .next τ) (hrun : τ.mode = .run)
    (hi : CleanOp s h i) (hpost : isPost s i = false) (htake : i ≠ .ntake s) :
    Posted s h τ ∧ window τ s h = window σ s h ∧ qseq (τ.side (peer s)) = qseq (σ.side (peer s)) := by
  have hstep : i ≠ .rstep s := by
    rintro rfl
    obtain ⟨-, hscan⟩ := enabled_of_next hx
    rw [hp.idle] at hscan; cases hscan
  simp only [isPost, Bool.or_eq_false_iff, decide_eq_false_iff_not] at hpost
  obtain ⟨hslot, hvalue⟩ := pendingNotificationIsKept σ τ s i hp.mode hp.slot hx htake hi.2.1
  refine ⟨⟨hrun, idle_kept hp.idle hx htake, hslot, (hvalue hpost.1 hpost.2).trans hp.value,
    exec_sideInv hp.dest hx⟩, window_congr fun k => ?_, qseq_peer_of_cleanOp hp.mode hx hi hstep⟩
  refine onlyDmaWritesTheReceiveBuffer σ τ i s _ hx hi.2.1 ?_
  rintro d rfl
  exact halfOf_ne_of_cleanOp hi (halfOf_windowAddr h k)

/-- From a posted half a clean segment delivers the half's frames. -/
theorem posted_delivers {h : Half} {mid body : List Instr} (hp : Posted s h σ)
    (hmid : ∀ i ∈ mid, isPost s i = false ∧ i ≠ .ntake s) (hcount : body.count (.rstep s) = Config.H)
    (hlast : body.getLast? = some (.rstep s)) (hclean : ∀ i ∈ mid ++ .ntake s :: body, CleanOp s h i)
    (ha : accept (mid ++ .ntake s :: body) σ = some τ) :
    qseq (τ.side (peer s)) = deliver (qseq (σ.side (peer s))) (frames (window σ s h)) := by
  induction mid generalizing σ with
  | nil =>
    obtain ⟨t, hx, ha⟩ := accept_cons_iff.1 ha
    obtain ⟨-, rfl⟩ := (execNtake_next_iff σ t s).1 hx
    have hpass := passUnderWay_takeAndStart (s := s) hp.mode hp.dest
    rw [hp.value, ← hcount] at hpass
    rw [pass_reaches_outcome hpass hlast (fun i hi => hclean i (List.mem_cons_of_mem _ hi)) ha,
      outcome_takeAndStart, hp.value]
  | cons i mid ih =>
    obtain ⟨t, hx, ha⟩ := accept_cons_iff.1 ha
    have hi := hclean i List.mem_cons_self
    have hcleanTail : ∀ j ∈ mid ++ .ntake s :: body, CleanOp s h j := fun j hj => hclean j (List.mem_cons_of_mem _ hj)
    have hrun : t.mode = .run :=
      run_of_accept hp.mode hx hi.2.1 ha (by simp) fun hreset => (hcleanTail _ hreset).2.1 rfl
    obtain ⟨hpost, htake⟩ := hmid i List.mem_cons_self
    obtain ⟨hpt, hwin, hq⟩ := hp.after_cleanOp hx hrun hi hpost htake
    rw [ih hpt (fun j hj => hmid j (List.mem_cons_of_mem _ hj)) hcleanTail ha, hwin, hq]

/-- The completion event of a half posts its number. -/
theorem exec_eventOf_next_iff {h : Half} : exec (eventOf s h) σ = .next τ ↔ σ.mode = .run ∧ nPost σ s h = τ := by
  have hone : h ≠ 0 → h = 1 := by revert h; decide
  unfold eventOf
  split
  · next h0 => subst h0; exact execRxhalf_next_iff σ τ s
  · next h0 => rw [hone h0]; exact execRxfull_next_iff σ τ s

/-- Settles O52: the post leaves a posted half, and a clean segment delivers it. -/
theorem cleanPassDeliversTheHalfAsPosted : Obligations.CleanPassDeliversTheHalfAsPosted := by
  intro σ τ s h seg hidle hi hclean hpeer ha
  obtain ⟨mid, body, rfl, hmid, hcount, hlast, hops⟩ := hclean
  obtain ⟨t, hx, ha⟩ := accept_cons_iff.1 ha
  obtain ⟨hm, rfl⟩ := exec_eventOf_next_iff.1 hx
  have hposted : Posted s h (nPost σ s h) := by
    refine ⟨(nPost_mode h).trans hm, ?_, ?_, ?_, ?_⟩
    · rw [nPost_side_same]; exact hidle
    · rw [nPost_side_same]
    · rw [nPost_side_same]
    · rw [nPost_side_peer]; exact hi
  have hwin : window (nPost σ s h) s h = window σ s h :=
    window_congr fun k => rxRead_congr (by rw [nPost_side_same]) (nPost_draws h) _
  have hcleanTail : ∀ i ∈ mid ++ .ntake s :: body, CleanOp s h i := fun i hmem =>
    have hseg := List.mem_cons_of_mem (eventOf s h) hmem
    ⟨(hops i hseg).1, (hops i hseg).2, fun e hie => hpeer e (hie ▸ hseg)⟩
  rw [posted_delivers hposted hmid hcount hlast hcleanTail ha, hwin, nPost_side_peer, deliver]

end Machine
end Sys2Proof
end

section
/-! Traces and executions (70_reset_and_hazards.md R217 and R222, 44_sequencer_and_system.md R171): the slot of a side along
a trace that keeps pace, a fair execution up to the take, and the flag between two completions. -/

namespace Sys2Proof
namespace Machine

variable {σ τ : State} {s : Side} {i : Instr}

/-! ## Keeping pace -/

/-- Only a post fills an empty slot. -/
theorem slot_empty_kept (hv : (σ.side s).nv = false) (h : exec i σ = .next τ) (hpost : isPost s i = false) :
    (τ.side s).nv = false := by
  have hmove := exec_sideMove h s
  generalize τ.side s = c at hmove ⊢
  cases hmove with
  | half => simp [isPost] at hpost
  | full => simp [isPost] at hpost
  | scan => rw [scanOwn_frame]; exact hv
  | fill => rw [scanPeer_frame, peer_peer]; exact hv
  | reset | init | take => rfl
  | dma | done | issue | keep => exact hv

/-- A take leaves the slot empty. -/
theorem slot_empty_of_ntake (h : exec (.ntake s) σ = .next τ) : (τ.side s).nv = false := by
  obtain ⟨-, rfl⟩ := (execNtake_next_iff σ τ s).1 h
  rw [takeAndStart_eq, setSide_side_same]

/-- Where pace is kept and no post is waiting, the slot is empty; so it is at the next post. -/
theorem slot_empty_of_keepsPaceFrom {before after : List Instr} {waiting : Bool}
    (hv : waiting = false → (σ.side s).nv = false) (hpace : keepsPaceFrom s waiting (before ++ i :: after) = true)
    (ha : accept before σ = some τ) (hi : isPost s i = true) : (τ.side s).nv = false := by
  induction before generalizing σ waiting with
  | nil =>
    rw [accept_nil, Option.some_inj] at ha
    subst ha
    rw [List.nil_append, keepsPaceFrom, if_pos hi, Bool.and_eq_true, Bool.not_eq_true'] at hpace
    exact hv hpace.1
  | cons j before ih =>
    obtain ⟨t, hx, hrest⟩ := accept_cons_iff.1 ha
    rw [List.cons_append, keepsPaceFrom] at hpace
    split at hpace
    · exact ih (waiting := true) nofun (Bool.and_eq_true_iff.1 hpace).2 hrest
    · next hpost =>
      split at hpace
      · next htake => exact ih (fun _ => slot_empty_of_ntake (htake ▸ hx)) hpace hrest
      · exact ih (fun hw => slot_empty_kept (hv hw) hx (Bool.not_eq_true _ ▸ hpost)) hpace hrest

/-- Settles O58: at the start no post is waiting. -/
theorem keepingPaceLosesNoNotification : Obligations.KeepingPaceLosesNoNotification :=
  fun _ _ _ _ _ _ hv hpace ha hi => slot_empty_of_keepsPaceFrom (fun _ => hv) hpace ha hi

/-! ## Fair executions -/

section Fairness

variable {st : Nat → State} {op : Nat → Instr} {n : Nat}
variable (hexec : IsExecution st op) (hrun : ∀ m, (st m).mode = .run)
include hexec hrun

/-- An execution in `RUN` has no reset. -/
theorem op_ne_reset (m : Nat) : op m ≠ .reset := by
  intro hr
  have hx := hexec m
  rw [hr] at hx
  have hm := hrun (m + 1)
  rw [← (execReset_next_iff _ _).1 hx] at hm
  cases hm

/-- A notification that is never taken stays. -/
theorem slot_kept_without_take (hv : ((st n).side s).nv = true) (hnever : ∀ m, n ≤ m → op m ≠ .ntake s) {m : Nat}
    (hm : n ≤ m) : ((st m).side s).nv = true := by
  induction m, hm using Nat.le_induction with
  | base => exact hv
  | succ m hm ih =>
    exact (pendingNotificationIsKept _ _ s _ (hrun m) ih (hexec m) (hnever m hm) (op_ne_reset hexec hrun m)).1

omit hrun in
/-- A sequencer that takes nothing and is idle stays idle. -/
theorem idle_kept_without_take (hidle : ((st n).side s).ph = .idle) (hnever : ∀ m, n ≤ m → op m ≠ .ntake s) {m : Nat}
    (hm : n ≤ m) : ((st m).side s).ph = .idle := by
  induction m, hm using Nat.le_induction with
  | base => exact hidle
  | succ m hm ih => exact idle_kept ih (hexec m) (hnever m hm)

/-- In a pass an operation raises the index, if it is the pass's step and the pass goes on, or keeps it. -/
theorem index_of_scan (m : Nat) (hscan : ((st m).side s).ph = .scan) (hscan' : ((st (m + 1)).side s).ph = .scan) :
    ((st (m + 1)).side s).idx.toNat = ((st m).side s).idx.toNat + if op m = .rstep s then 1 else 0 := by
  have hx := hexec m
  split
  · next hop =>
    rw [hop] at hx
    obtain ⟨-, -, hτ⟩ := (execRstep_next_iff _ _ _).1 hx
    rw [← hτ, scanStep_side_same] at hscan' ⊢
    have hidx := ((st m).side s).idx.isLt
    have hne : ((st m).side s).idx.toNat ≠ Config.H - 1 := fun hl => by
      rw [(scanOwn_of_last hl).1] at hscan'; cases hscan'
    simp only [Config.H] at hne
    exact (scanOwn_of_not_last (by simp only [Config.H]; omega)).2
  · next hop =>
    obtain ⟨-, -, hidx, -⟩ := pass_registers_kept (hrun m) hscan hx hop (op_ne_reset hexec hrun m)
    rw [hidx, Nat.add_zero]

/-- In a pass that never ends the index never falls. -/
theorem index_le_of_scan (hscan : ∀ m, n ≤ m → ((st m).side s).ph = .scan) {m : Nat} (hm : n ≤ m) :
    ((st n).side s).idx.toNat ≤ ((st m).side s).idx.toNat := by
  induction m, hm using Nat.le_induction with
  | base => exact Nat.le_refl _
  | succ m hm ih =>
    have hstep := index_of_scan hexec hrun m (hscan m hm) (hscan (m + 1) (by omega))
    omega

/-- A pass of a fair execution ends: its step is enabled throughout, and each one taken raises the index. -/
theorem idle_of_fair (hfair : WeaklyFair (fun i => i = .rstep s) st op) (n : Nat) :
    ∃ m, n ≤ m ∧ ((st m).side s).ph = .idle := by
  by_contra hnone
  have hscan : ∀ m, n ≤ m → ((st m).side s).ph = .scan := fun m hm => by
    cases hp : ((st m).side s).ph with
    | idle => exact absurd ⟨m, hm, hp⟩ hnone
    | scan => rfl
  have hgrows : ∀ k, ∃ m, n ≤ m ∧ k ≤ ((st m).side s).idx.toNat := by
    intro k
    induction k with
    | zero => exact ⟨n, Nat.le_refl n, Nat.zero_le _⟩
    | succ k ih =>
      obtain ⟨m, hm, hk⟩ := ih
      obtain ⟨l, hl, hop⟩ := hfair m fun l hl => ⟨_, rfl, hrun l, hscan l (by omega)⟩
      have hstep := index_of_scan hexec hrun l (hscan l (by omega)) (hscan (l + 1) (by omega))
      rw [if_pos hop] at hstep
      have hle := index_le_of_scan hexec hrun (fun j hj => hscan j (hm.trans hj)) hl
      exact ⟨l + 1, by omega, by omega⟩
  obtain ⟨m, -, hm⟩ := hgrows Config.H
  have hidx : ((st m).side s).idx.toNat < Config.H := ((st m).side s).idx.isLt
  omega

end Fairness

/-- Settles O59: were it never taken, the pass under way would end, and the take would be enabled for ever. -/
theorem everyNotificationIsServed : Obligations.EveryNotificationIsServed := by
  intro st op s n hexec hfair hrun hv
  by_contra hnone
  have hnever : ∀ m, n ≤ m → op m ≠ .ntake s := fun m hm hop => hnone ⟨m, hm, hop⟩
  obtain ⟨htake, hstep, -⟩ := hfair s
  obtain ⟨k, hk, hidle⟩ := idle_of_fair hexec hrun hstep n
  obtain ⟨m, hm, hop⟩ := htake k fun m hm =>
    ⟨_, rfl, hrun m, idle_kept_without_take hexec hidle (fun j hj => hnever j (hk.trans hj)) hm,
      slot_kept_without_take hexec hrun hv hnever (hk.trans hm)⟩
  exact hnever m (hk.trans hm) hop

/-! ## One completion per transmission -/

/-- A transmission of the side is outstanding in `RUN`. -/
def Outstanding (s : Side) (σ : State) : Prop := σ.mode = .run ∧ (σ.side s).txf = true

/-- Only an answered `TXISSUE s, ok` makes a transmission of the side outstanding. -/
theorem issue_of_outstanding (hσ : ¬ Outstanding s σ) (h : exec i σ = .next τ) (hτ : Outstanding s τ) :
    i = .txissue s .ok := by
  obtain ⟨hrun, hflag⟩ := hτ
  rcases exec_mode_cases h with ⟨rfl, rfl⟩ | ⟨rfl, -⟩ | ⟨-, -, -, -, -, hm, -⟩ | ⟨-, -, -, hm, -⟩ | ⟨hm, -⟩
  · cases hrun
  · obtain ⟨-, -, rfl⟩ := (execEnable_next_iff σ τ 0).1 h
    rw [if_pos rfl, initialise_side] at hflag
    cases hflag
  · rw [hm] at hrun; cases hrun
  · rw [hm] at hrun; cases hrun
  · have hclear : (σ.side s).txf ≠ true := fun hf => hσ ⟨hm, hf⟩
    have hmove := exec_sideMove h s
    generalize τ.side s = c at hmove hflag
    cases hmove with
    | issue e =>
      cases e with
      | ok => rfl
      | error =>
        obtain ⟨-, rfl⟩ := (execTxissue_next_iff σ τ s .error).1 h
        cases hrun
    | scan => rw [scanOwn_frame] at hflag; exact absurd hflag hclear
    | fill => rw [scanPeer_frame, peer_peer] at hflag; exact absurd hflag hclear
    | reset | init | done => cases hflag
    | dma | half | full | take | keep => exact absurd hflag hclear

/-- If a transmission becomes outstanding along a trace, a `TXISSUE s, ok` of it took place. -/
theorem exists_issue_of_outstanding {mid : List Instr} (hσ : ¬ Outstanding s σ) (hτ : Outstanding s (presentAll mid σ)) :
    ∃ pre post, mid = pre ++ .txissue s .ok :: post ∧ ∃ τ, exec (.txissue s .ok) (presentAll pre σ) = .next τ := by
  induction mid generalizing σ with
  | nil => exact absurd hτ hσ
  | cons i mid ih =>
    by_cases hnext : Outstanding s (present i σ)
    · have htaken : takesStep i σ = true := by
        by_contra hno
        rw [takesStep_iff, not_exists] at hno
        rw [present_of_not_next hno] at hnext
        exact hσ hnext
      obtain ⟨t, hx⟩ := takesStep_iff.1 htaken
      rw [present_of_next hx] at hnext
      obtain rfl := issue_of_outstanding hσ hx hnext
      exact ⟨[], mid, rfl, t, hx⟩
    · obtain ⟨pre, post, rfl, hissue⟩ := ih hnext hτ
      exact ⟨i :: pre, post, rfl, hissue⟩

/-- Under the contract a completion comes with a transmission outstanding, after any part of the trace. -/
theorem outstanding_of_txContractFrom {before after : List Instr} {completed : Bool}
    (h : txContractFrom s completed (before ++ .txdone s :: after) σ = true) : Outstanding s (presentAll before σ) := by
  induction before generalizing σ completed with
  | nil =>
    rw [List.nil_append, txContractFrom, Bool.and_eq_true] at h
    simp only [ne_eq, not_true_eq_false, decide_false, Bool.false_or, Bool.and_eq_true] at h
    obtain ⟨⟨⟨htaken, hflag⟩, -⟩, -⟩ := h
    obtain ⟨t, hx⟩ := takesStep_iff.1 htaken
    exact ⟨enabled_of_next hx, hflag⟩
  | cons i before ih =>
    rw [List.cons_append, txContractFrom, Bool.and_eq_true] at h
    exact ih h.2

/-- Settles O60: after a completion none is outstanding, so before the next one a transmission was issued. -/
theorem transmitContractGivesOneCompletionPerIssue : Obligations.TransmitContractGivesOneCompletionPerIssue := by
  intro σ s before after h
  have hfirst : Outstanding s (presentAll before σ) := outstanding_of_txContractFrom h
  refine ⟨hfirst.1, hfirst.2, ?_⟩
  rintro mid rest rfl
  have hdone : presentAll (before ++ [.txdone s]) σ =
      (presentAll before σ).setSide s { (presentAll before σ).side s with txf := false } := by
    rw [presentAll_append, presentAll_cons, presentAll_nil, present_of_next (exec_txdone_of_run hfirst.1)]
  have hclear : ¬ Outstanding s (presentAll (before ++ [.txdone s]) σ) := fun ⟨_, hflag⟩ => by
    rw [hdone, setSide_side_same] at hflag; cases hflag
  have hsecond : Outstanding s (presentAll mid (presentAll (before ++ [.txdone s]) σ)) := by
    rw [← presentAll_append]
    refine outstanding_of_txContractFrom (after := rest) (completed := false) ?_
    rw [← h, txContract]
    simp
  obtain ⟨pre, post, rfl, t, hx⟩ := exists_issue_of_outstanding hclear hsecond
  refine ⟨pre, post, rfl, t, ?_⟩
  rw [← presentAll_append] at hx
  rwa [List.append_assoc] at hx

end Machine
end Sys2Proof
end
